-- ==== Sys2Proof/Word.lean ====
section
/-! DEFINITION. The values that travel on the ports: bytes, byte sequences, the EncodedFloat record in its two
layouts, the native number, and the one error with its causes. Types only; what is computed with them stands in
Machine/. -/

namespace Sys2Proof

/-- A byte, 0 to 255, bit 7 most significant (00_scope.md R10, R11). -/
abbrev Byte := BitVec 8

/-- `Seq N` of 00_scope.md R11: bytes in order, index 0 first; `N` is the length. -/
abbrev ByteSeq := List Byte

/-- An EncodedFloat in WIRE layout, fields in the order of their offsets (20_memory.md R25, 30_encoding.md R38).
The layout is part of the type, since "the two layouts are never mixed silently" (R37). -/
structure Wire where
  /-- offset 0: mantissa bits 7 to 0 -/
  mantissaLow : Byte
  /-- offset 1: mantissa bits 15 to 8 -/
  mantissaMid : Byte
  /-- offset 2: bit 7 the sign, bits 6 to 0 mantissa bits 22 to 16 -/
  mantissaHigh : Byte
  /-- offset 3: 0 for the number zero, else the excess-128 exponent -/
  exponent : Byte
  deriving DecidableEq, Repr

/-- An EncodedFloat in WORKING layout, the wire layout reversed (20_memory.md R26, 30_encoding.md R39). -/
structure Work where
  /-- index 0 -/
  exponent : Byte
  /-- index 1: bit 7 the sign, bits 6 to 0 mantissa bits 22 to 16 -/
  mantissaHigh : Byte
  /-- index 2 -/
  mantissaMid : Byte
  /-- index 3 -/
  mantissaLow : Byte
  deriving DecidableEq, Repr

/-- The canonical zero of 30_encoding.md R48, in wire layout. -/
def Wire.zero : Wire := ⟨0, 0, 0, 0⟩

/-- The canonical zero in working layout. -/
def Work.zero : Work := ⟨0, 0, 0, 0⟩

/-- A native number format on the type `ν`: the model argument `Native` of 00_scope.md R9 with its two maps
(92_eei_decisions.md D4). Everything the model says of the codec takes one of these as an argument. -/
structure NativeFormat (ν : Type) where
  /-- the rational a value is, where it is a finite number (40_codec.md R64) -/
  toQ : ν → Option ℚ
  /-- the value that holds a rational; needed only on the results of DECODE (40_codec.md R68, D4) -/
  ofQ : ℚ → ν

/-- The native type the machine behind the host's interface is run at: that interface wants one closed type of plain
data. `finite` is the spec's default, the exact rationals; the other three are what a native format may hold beside
them, a second zero (40_codec.md R65, D6) and the values that are no finite number (R65, D5). The model itself takes any
`NativeFormat`. DESIGN CHOICE, log entry 5; safe. -/
inductive Native where
  /-- an exact rational number -/
  | finite (q : ℚ)
  /-- the negative zero of a native format that has one -/
  | negZero
  /-- an infinity of either sign -/
  | infinite (negative : Bool)
  /-- not a number -/
  | nan
  deriving DecidableEq, Repr

/-- `RangeError` with its cause (60_exceptions.md R101, R102, R103). -/
inductive RangeError where
  /-- raised by ENCODE: the biased exponent is outside 1 to 255 -/
  | encExp
  /-- raised by ADD: the exponent would pass 255 -/
  | addExp
  deriving DecidableEq, Repr

/-- What the byte-wise sum of ADD leaves (42_adder.md R88): `byte1_sum` unreduced, the two lower bytes reduced. -/
structure SumBytes where
  /-- `byte1_sum`, not reduced -/
  byte1Sum : Nat
  /-- `byte2_sum & 0xFF` -/
  byte2 : Byte
  /-- `byte3_sum & 0xFF` -/
  byte3 : Byte
  deriving DecidableEq, Repr

end Sys2Proof
end

