-- ==== Sys2Proof/Config.lean ====
section
/-! DEFINITION. The implementation parameters of 00_scope.md R9. No behaviour of this hardware is left to an undefined
value, so there is no free value here. -/

namespace Sys2Proof

/-- `ENC_BYTES`: bytes in an EncodedFloat. -/
abbrev Config.encBytes : Nat := 4

/-- `MANT_BITS`: bits of the reconstructed mantissa. -/
abbrev Config.mantBits : Nat := 24

/-- `EXP_BIAS`: the exponent bias. -/
abbrev Config.expBias : Nat := 128

/-- A hardware `byte_shifter_with_carry`: it fixes `N_BYTES` and `POS_WIDTH` (41_shifter.md R81). -/
structure ShifterBlock where
  /-- `N_BYTES` -/
  nBytes : Nat
  /-- `POS_WIDTH` -/
  posWidth : Nat
  deriving DecidableEq, Repr

/-- The shifter inside `fp_adder_encoded_domain`: 4 bytes, 8-bit `positions` (41_shifter.md R81). -/
def Config.adderShifter : ShifterBlock := ⟨4, 8⟩

end Sys2Proof
end

