-- ==== Sys2Proof/Syntax.lean ====
section
/-! DEFINITION. The closed set of operations (30_encoding.md R52) and why a selector is turned away. -/

namespace Sys2Proof

/-- The five operations. None has an operand field: every operand is a whole value on a port (30_encoding.md R52). -/
inductive Instr where
  /-- `encode(value)`, block `fp_encoder` (40_codec.md R57) -/
  | encode
  /-- `decode(bytes)`, block `fp_decoder` (40_codec.md R66) -/
  | decode
  /-- `shift_right_one(bytes)`, block `byte_shifter_with_carry` (41_shifter.md R73) -/
  | shr1
  /-- `shift_right(bytes, positions)`, block `byte_shifter_with_carry` (41_shifter.md R77) -/
  | shr
  /-- `add(a, b)`, block `fp_adder_encoded_domain` (42_adder.md R83) -/
  | add
  deriving DecidableEq, Repr

/-- The four hardware blocks (00_scope.md R1, R2). -/
inductive Block where
  | fpEncoder
  | fpDecoder
  | byteShifterWithCarry
  | fpAdderEncodedDomain
  deriving DecidableEq, Repr

/-- The block that performs an operation (the table of 30_encoding.md R52). -/
def Instr.block : Instr → Block
  | .encode => .fpEncoder
  | .decode => .fpDecoder
  | .shr1 => .byteShifterWithCarry
  | .shr => .byteShifterWithCarry
  | .add => .fpAdderEncodedDomain

/-- Why a selector value stands for no operation. -/
inductive DecodeError where
  /-- the values 5, 6, 7, which select nothing (30_encoding.md R54) -/
  | reservedSelector (op : BitVec 3)
  deriving DecidableEq, Repr

end Sys2Proof
end

