-- ==== Sys2Proof/WellFormed.lean ====
section
/-! DEFINITION. Checks on what the embedding program presents. The five operations have no operand fields, so every
`Instr` is well formed; what can be ill formed is a selector value, a native value for ENCODE, and the operands of a
hardware shifter of fixed size. -/

namespace Sys2Proof

/-- Every operation is well formed: none has a field (30_encoding.md R53). -/
def Instr.wf : Instr → Bool
  | .encode => true
  | .decode => true
  | .shr1 => true
  | .shr => true
  | .add => true

/-- A selector value that selects an operation; 5, 6 and 7 are reserved (30_encoding.md R53, R54). -/
def selectorWf (op : BitVec 3) : Bool := op.toNat < 5

/-- A native value ENCODE can take: a finite number (40_codec.md R65, 70_reset_and_hazards.md R118). -/
def Native.wf : Native → Bool
  | .finite _ => true
  | .negZero => true
  | .infinite _ => false
  | .nan => false

/-- A hardware shifter has at least one byte (41_shifter.md R81). -/
def ShifterBlock.wf (k : ShifterBlock) : Bool := 1 ≤ k.nBytes

/-- The operands a hardware shifter accepts: `N_BYTES` bytes, and `positions` below `2^POS_WIDTH` (41_shifter.md R81). -/
def ShifterBlock.accepts (k : ShifterBlock) (s : ByteSeq) (positions : Nat) : Bool :=
  s.length == k.nBytes && positions < 2 ^ k.posWidth

end Sys2Proof
end

