-- ==== Sys2Proof/Decode.lean ====
section
/-! DEFINITION. The operation selector (30_encoding.md R53, R54): its decoder, total on all eight values, and its
encoder. -/

namespace Sys2Proof

/-- The operation a selector value selects; 5, 6 and 7 are refused by name (30_encoding.md R53, R54). -/
def decodeSelector (op : BitVec 3) : Except DecodeError Instr :=
  match op.toNat with
  | 0 => .ok .encode
  | 1 => .ok .decode
  | 2 => .ok .shr1
  | 3 => .ok .shr
  | 4 => .ok .add
  | _ => .error (.reservedSelector op)

/-- The selector value of an operation (30_encoding.md R53). -/
def encodeSelector : Instr → BitVec 3
  | .encode => 0
  | .decode => 1
  | .shr1 => 2
  | .shr => 3
  | .add => 4

/-- The select input that carries a word of the opcode table: its bits 2 to 0. The selector is always 3 bits
(30_encoding.md R56); a table word's higher bits have no wire. DESIGN CHOICE, log entry 3; safe. -/
def selectorOfWord (w : Nat) : BitVec 3 := BitVec.ofNat 3 w

/-- The operation the decoder reads from a word numbered as the opcode table numbers it. -/
def decodeTableWord (_nbits w : Nat) : Option Instr :=
  match decodeSelector (selectorOfWord w) with
  | .ok i => some i
  | .error _ => none

end Sys2Proof
end

