-- ==== Sys2Proof/Machine/State.lean ====
section
/-! DEFINITION. The state of the hardware, which is none (10_state.md R13, R21), and beside it what a step needs of the
embedding program: the input levels it presents and what it last received (log entry 1). The reasons a step can stop, and
the levels the model starts from. Output levels are not here: they are functions of the input levels (R24), in
Machine/Ports.lean. -/

namespace Sys2Proof.Machine

/-- The state of the hardware itself: "the machine state type is the unit type" (10_state.md R21). -/
abbrev MachineState := Unit

/-- The levels the embedding program drives on the input ports of one of each block, and on the wrapper's select input
(10_state.md R22, 30_encoding.md R53), for a native type `ν`. -/
structure Inputs (ν : Type) where
  /-- the wrapper's select input, `op[2:0]` (30_encoding.md R53) -/
  op : BitVec 3
  /-- `fp_encoder.value` -/
  encValue : ν
  /-- `fp_decoder.enc` -/
  decIn : Wire
  /-- `byte_shifter_with_carry.din`, index 0 most significant -/
  shDin : ByteSeq
  /-- `byte_shifter_with_carry.positions` -/
  shPositions : Nat
  /-- `fp_adder_encoded_domain.a` -/
  addA : Work
  /-- `fp_adder_encoded_domain.b` -/
  addB : Work
  deriving DecidableEq, Repr

/-- What an invocation delivers to its caller (60_exceptions.md R106): the result of its operation, or, where the
operation can raise, the error in place of a result (R104). -/
inductive Reply (ν : Type) where
  /-- no invocation yet -/
  | nothing
  /-- of `fp_encoder` -/
  | enc (r : Except RangeError Wire)
  /-- of `fp_decoder` -/
  | value (v : ν)
  /-- of `byte_shifter_with_carry` -/
  | dout (d : ByteSeq)
  /-- of `fp_adder_encoded_domain` -/
  | sum (r : Except RangeError Work)
  deriving DecidableEq, Repr

/-- What the host's interface calls a state: the hardware's own, which is of unit type, and the embedding program's side
of the ports. `delivered` is what the embedding program holds after an invocation ("what is listed is the start values and
the end values held by the embedding program", 95_test_vectors.md section 3); no operation reads it. -/
structure State extends Inputs Native where
  /-- the hardware's state (10_state.md R13, R21) -/
  machine : MachineState
  /-- what the last invocation delivered to the embedding program (60_exceptions.md R106, R113) -/
  delivered : Reply Native
  deriving DecidableEq, Repr

/-- A step of this hardware never ends in a fault, so there is no constructor: its one error is reported on an output
port and the next invocation goes on (60_exceptions.md R104, R111, R112). DEDUCED, log entry 6; safe. -/
inductive Fault where
  deriving DecidableEq, Repr

/-- Why a step is refused. -/
inductive Refusal where
  /-- raised by an arm of `exec` that has no meaning yet; no arm uses it; safe -/
  | notModelled (mnemonic : String)
  /-- raised by `step` on selector values 5, 6, 7, which select no operation (30_encoding.md R54); safe -/
  | reservedSelector (op : BitVec 3)
  /-- raised by ENCODE on a native value that is no finite number (40_codec.md R65, U3); safe -/
  | valueNotFinite (v : Native)
  deriving DecidableEq, Repr

/-- The model's starting levels. The hardware has no state to reset (10_state.md R24, 70_reset_and_hazards.md R115): every
input is at zero, and nothing has been delivered. DESIGN CHOICE, log entry 4; unsafe. -/
def State.reset : State where
  op := 0
  encValue := .finite 0
  decIn := Wire.zero
  shDin := []
  shPositions := 0
  addA := Work.zero
  addB := Work.zero
  machine := ()
  delivered := .nothing

end Sys2Proof.Machine
end

