-- ==== Sys2Proof/Machine/Ops.lean ====
section
/-! DEFINITION. The shared operations: byte sequences and the two layouts, raising `RangeError`, delivering a result,
and what the embedding program does between invocations. -/

namespace Sys2Proof.Machine

/-! ### Byte sequences (00_scope.md R11) -/

/-- `s[i]`. Past the end it reads 0; no operation reads there (log entry 11). -/
def byteAt (s : ByteSeq) (i : Nat) : Byte := s.getD i 0

/-- `be(s)`: the sequence read as one big-endian unsigned integer, the sum over `i` of `s[i] * 256^(N-1-i)`. -/
def be : ByteSeq → Nat
  | [] => 0
  | b :: rest => b.toNat * 256 ^ rest.length + be rest

/-- `bytes_N(v)`: the `n` bytes whose `be` is `v`, for `v < 256^n`. -/
def bytesN : Nat → Nat → ByteSeq
  | 0, _ => []
  | n + 1, v => BitVec.ofNat 8 (v / 256 ^ n) :: bytesN n (v % 256 ^ n)

/-- The flat bus of 10_state.md R23: byte `i` on bits `8*i+7` down to `8*i`. -/
def flatBus : ByteSeq → Nat
  | [] => 0
  | b :: rest => b.toNat + 256 * flatBus rest

end Sys2Proof.Machine

namespace Sys2Proof

/-! ### The two layouts (30_encoding.md R38 to R40) -/

/-- The four bytes of a wire-layout record by offset. -/
def Wire.bytes (w : Wire) : ByteSeq := [w.mantissaLow, w.mantissaMid, w.mantissaHigh, w.exponent]

/-- The four bytes of a working-layout record by index. -/
def Work.bytes (k : Work) : ByteSeq := [k.exponent, k.mantissaHigh, k.mantissaMid, k.mantissaLow]

/-- `rev` from wire to working layout. -/
def Wire.rev (w : Wire) : Work := ⟨w.exponent, w.mantissaHigh, w.mantissaMid, w.mantissaLow⟩

/-- `rev` from working to wire layout. -/
def Work.rev (k : Work) : Wire := ⟨k.mantissaLow, k.mantissaMid, k.mantissaHigh, k.exponent⟩

/-- The working-layout record whose bytes are those of `w` as they stand, WITHOUT the reversal: what ADD sees when wire
bytes are put on its ports (70_reset_and_hazards.md R120). -/
def Work.ofUnreversed (w : Wire) : Work := ⟨w.mantissaLow, w.mantissaMid, w.mantissaHigh, w.exponent⟩

end Sys2Proof

namespace Sys2Proof.Machine

/-! ### Raising and reporting `RangeError` (60_exceptions.md R104 to R106) -/

/-- `raise RangeError(cause)`: the operation delivers no result (00_scope.md R11, 60_exceptions.md R104). Nothing is
saved, no mode changes and control goes nowhere (R111); nothing is to be returned from (R112). -/
def raise {α : Type} (cause : RangeError) : Except RangeError α := .error cause

/-- The cause codes of 60_exceptions.md R105: 0 NONE, 1 ENC_EXP, 2 ADD_EXP. No port carries them. -/
def causeCode {α : Type} : Except RangeError α → Nat
  | .ok _ => 0
  | .error .encExp => 1
  | .error .addExp => 2

/-! ### Delivering a result (10_state.md R21, 60_exceptions.md R106): the only change an invocation makes -/

/-- The embedding program receives what an invocation delivers. No input level changes (10_state.md R20) and the hardware
stores nothing (R13). -/
def State.deliver (s : State) (r : Reply Native) : State := { s with delivered := r }

/-! ### The embedding program, between invocations (60_exceptions.md R113). DESIGN CHOICE, log entry 13; unsafe. -/

/-- It selects an operation. -/
def State.presentOp (s : State) (op : BitVec 3) : State := { s with op := op }

/-- It presents the operand of ENCODE. -/
def State.presentValue (s : State) (v : Native) : State := { s with encValue := v }

/-- It presents the operand of DECODE, in wire layout. -/
def State.presentRecord (s : State) (w : Wire) : State := { s with decIn := w }

/-- It presents the operands of SHR; SHR1 reads `din` only. -/
def State.presentSequence (s : State) (din : ByteSeq) (positions : Nat) : State :=
  { s with shDin := din, shPositions := positions }

/-- It presents the operands of ADD, in working layout. -/
def State.presentOperands (s : State) (a b : Work) : State := { s with addA := a, addB := b }

/-- It presents wire-layout operands to the adder with the byte lanes crossed: the input half of ADDW
(42_adder.md R99). -/
def State.presentWireOperands (s : State) (x y : Wire) : State :=
  s.presentOperands x.rev y.rev

end Sys2Proof.Machine
end

