-- ==== Sys2Proof/Machine/Operands.lean ====
section
/-! DEFINITION. The assembly of operands from bits: the fields of a record (30_encoding.md R41 to R47), the native side
of the codec (40_codec.md R64, R65), and the integrator's views of a record (20_memory.md R28). -/

namespace Sys2Proof.Machine

/-! ### The fields of a record -/

/-- The sign bit, bit 7 of `mantissa_high` (30_encoding.md R43). -/
def signBit (mantissaHigh : Byte) : BitVec 1 := mantissaHigh.extractLsb' 7 1

/-- `mantissa_high | 0x80`: the implied bit restored (30_encoding.md R45). -/
def restoreImplied (mantissaHigh : Byte) : Byte := mantissaHigh ||| 0x80

/-- `(mantissa_high & 0x7F) | (sign << 7)`: the implied bit dropped and the sign put in its place (40_codec.md R60). -/
def packSign (mantissaHigh : Byte) (sign : BitVec 1) : Byte :=
  (mantissaHigh &&& 0x7F) ||| (sign.setWidth 8 <<< 7)

/-- The 24-bit big-endian integer `high * 65536 + mid * 256 + low` (20_memory.md R27). -/
def assemble (high mid low : Byte) : Nat := high.toNat * 65536 + mid.toNat * 256 + low.toNat

/-- The reconstructed mantissa `M` of 30_encoding.md R46. -/
def mantissa (mantissaHigh mantissaMid mantissaLow : Byte) : Nat :=
  assemble (restoreImplied mantissaHigh) mantissaMid mantissaLow

end Sys2Proof.Machine

namespace Sys2Proof

/-- The reconstructed mantissa of a wire-layout record. -/
def Wire.mantissa (w : Wire) : Nat :=
  Machine.mantissa w.mantissaHigh w.mantissaMid w.mantissaLow

/-- The reconstructed mantissa of a working-layout record. -/
def Work.mantissa (k : Work) : Nat :=
  Machine.mantissa k.mantissaHigh k.mantissaMid k.mantissaLow

/-- A record stands for zero exactly when its exponent byte is 0, whatever the other bytes hold (30_encoding.md R42). -/
def Wire.isZero (w : Wire) : Bool := w.exponent == 0

/-- The same test on a working-layout record (42_adder.md R84). -/
def Work.isZero (k : Work) : Bool := k.exponent == 0

/-- The value a wire-layout record stands for (30_encoding.md R47). -/
def Wire.val (w : Wire) : ℚ :=
  if w.isZero then 0
  else (-1) ^ (Machine.signBit w.mantissaHigh).toNat * (w.mantissa : ℚ) * 2 ^ ((w.exponent.toNat : ℤ) - 128 - 24)

/-- The value a working-layout record stands for (30_encoding.md R47). -/
def Work.val (k : Work) : ℚ := k.rev.val

/-! ### The native side (40_codec.md R64, R65, R68) -/

/-- `toQ`: the rational a native value is, where it is a finite number. A zero of either sign is 0 (R65, D6). -/
def Native.toQ : Native → Option ℚ
  | .finite q => some q
  | .negZero => some 0
  | .infinite _ => none
  | .nan => none

/-- `ofQ`: the native value of a rational; exact (R68). -/
def Native.ofQ (q : ℚ) : Native := .finite q

/-- The format of the machine behind the host's interface (log entry 5). -/
def Native.format : NativeFormat Native := ⟨Native.toQ, Native.ofQ⟩

/-- The spec's default, `Native = Q` with `toQ = ofQ = id` (00_scope.md R9, 92_eei_decisions.md D4). -/
def NativeFormat.rationals : NativeFormat ℚ := ⟨some, id⟩

/-- What the spec asks of a native type: it holds every number DECODE can deliver exactly (40_codec.md R68). -/
def NativeFormat.HoldsRecordValues {ν : Type} (F : NativeFormat ν) : Prop :=
  ∀ w : Wire, F.toQ (F.ofQ w.val) = some w.val

/-! ### The integrator's views (20_memory.md R28) -/

/-- A wire-layout record read as one 32-bit little-endian integer from offset 0. -/
def Wire.le32 (w : Wire) : Nat := Machine.be w.bytes.reverse

/-- A working-layout record read as one 32-bit big-endian integer from index 0. -/
def Work.be32 (k : Work) : Nat := Machine.be k.bytes

end Sys2Proof
end

