-- ==== Sys2Proof/Machine/Flags.lean ====
section
/-! DEFINITION. The one status output and the local carries (10_state.md R15). Nothing here persists. -/

namespace Sys2Proof.Machine

/-- A carry of ADD's byte-wise sum: 1 when the sum exceeds 255, else 0 (42_adder.md R88). -/
def carryOut (sum : Nat) : Nat := if sum > 255 then 1 else 0

/-- The bit that leaves a byte of the shifter and enters the next: `s[i] & 1` (41_shifter.md R73). -/
def shiftedOut (b : Byte) : BitVec 1 := b.extractLsb' 0 1

/-- The 1-bit `range_err` of an output: 1 exactly when the operation raised (60_exceptions.md R104). -/
def rangeErr {α : Type} : Except RangeError α → BitVec 1
  | .ok _ => 0
  | .error _ => 1

end Sys2Proof.Machine
end

