-- ==== Sys2Proof/Machine/Shifter.lean ====
section
/-! DEFINITION. The Bit-Shifter family: SHR1 and SHR (`byte_shifter_with_carry`), 41_shifter.md. -/

namespace Sys2Proof.Machine

/-- The byte loop of 41_shifter.md R73, most significant byte first: each byte takes `cin` at the top and hands its low
bit on. The carry of the last byte is dropped (R76). -/
def shr1Loop : BitVec 1 → ByteSeq → ByteSeq
  | _, [] => []
  | cin, b :: rest => ((b >>> 1) ||| (cin.setWidth 8 <<< 7)) :: shr1Loop (shiftedOut b) rest

/-- SHR1: one right shift, a 0 entering at the top (41_shifter.md R73, R74). -/
def shr1 (s : ByteSeq) : ByteSeq := shr1Loop 0 s

/-- SHR: SHR1 repeated `positions` times (41_shifter.md R77, R78). -/
def shr (s : ByteSeq) : Nat → ByteSeq
  | 0 => s
  | n + 1 => shr (shr1 s) n

/-- SHR1 on the ports: `positions` is tied to 1, so the level of that port is not read (10_state.md R22, 41_shifter.md
R73; log entry 12). It cannot fail (60_exceptions.md R107). -/
def execShr1 (s : State) : Host.Outcome State Fault Refusal := .next (s.deliver (.dout (shr1 s.shDin)))

/-- SHR on the ports: `din` shifted by `positions` (41_shifter.md R77). It cannot fail. -/
def execShr (s : State) : Host.Outcome State Fault Refusal :=
  .next (s.deliver (.dout (shr s.shDin s.shPositions)))

end Sys2Proof.Machine
end

