-- ==== Sys2Proof/Machine/Adder.lean ====
section
/-! DEFINITION. The Addition family: ADD and the pseudo-operation ADDW (`fp_adder_encoded_domain`), 42_adder.md. The
literal algorithm: it ignores the signs of non-zero operands (R90, R94) and masks bit 7 of `byte1_sum` before the
renormalising shift (R89, R93; log entry 8). Its transient buffers are local values (10_state.md R19). -/

namespace Sys2Proof.Machine

/-- `(smaller, higher)`: swapped only if the exponent byte of `a` is strictly greater (42_adder.md R85). -/
def orderByExponent (a b : Work) : Work × Work := if b.exponent < a.exponent then (b, a) else (a, b)

/-- `exp_diff = higher.exponent - smaller.exponent` (42_adder.md R85). The subtraction never runs below 0 on the pair
`orderByExponent` gives. -/
def expDiff (smaller higher : Work) : Nat := higher.exponent.toNat - smaller.exponent.toNat

/-- `aligned` before the shift: the mantissa bytes of `smaller`, implied bit restored, and a guard byte 0
(42_adder.md R86). -/
def alignBuffer (smaller : Work) : ByteSeq :=
  [restoreImplied smaller.mantissaHigh, smaller.mantissaMid, smaller.mantissaLow, 0]

/-- The byte-wise sum with carries, least significant byte first (42_adder.md R88). `aligned[3]`, the guard byte, is
read by nothing (R87). -/
def sumBytes (higher : Work) (aligned : ByteSeq) : SumBytes :=
  let byte3Sum := higher.mantissaLow.toNat + (byteAt aligned 2).toNat
  let carry3 := carryOut byte3Sum
  let byte2Sum := higher.mantissaMid.toNat + (byteAt aligned 1).toNat + carry3
  let carry2 := carryOut byte2Sum
  let byte1Sum := (restoreImplied higher.mantissaHigh).toNat + (byteAt aligned 0).toNat + carry2
  ⟨byte1Sum, BitVec.ofNat 8 (byte2Sum &&& 0xFF), BitVec.ofNat 8 (byte3Sum &&& 0xFF)⟩

/-- The result mantissa buffer before renormalisation, `[byte1_sum & 0x7F, byte2, byte3, 0]` (42_adder.md R89). -/
def renormBuffer (sums : SumBytes) : ByteSeq := [BitVec.ofNat 8 (sums.byte1Sum &&& 0x7F), sums.byte2, sums.byte3, 0]

/-- Result assembly and renormalisation (42_adder.md R89): the mask `& 0x7F` stands before the test of `carry1` and
before the shift; the fourth byte of the buffer is dropped. An exponent past 255 raises (R96). -/
def assembleSum (he : Byte) (sums : SumBytes) : Except RangeError Work :=
  let carry1 := carryOut sums.byte1Sum
  let rexp := if carry1 = 1 then he.toNat + 1 else he.toNat
  let mant := if carry1 = 1 then shr1 (renormBuffer sums) else renormBuffer sums
  if rexp > 255 then raise .addExp
  else .ok ⟨BitVec.ofNat 8 rexp, byteAt mant 0, byteAt mant 1, byteAt mant 2⟩

/-- The sum path of ADD, for operands with non-zero exponent bytes (42_adder.md R85 to R89, R96). -/
def addNonzero (a b : Work) : Except RangeError Work :=
  let ordered := orderByExponent a b
  let aligned := shr (alignBuffer ordered.1) (expDiff ordered.1 ordered.2)
  assembleSum ordered.2.exponent (sumBytes ordered.2 aligned)

/-- ADD (42_adder.md R83). The zero tests come first, `b` before `a`, and return the other operand bit for bit
(R84). -/
def fpAdd (a b : Work) : Except RangeError Work :=
  if b.isZero then .ok a
  else if a.isZero then .ok b
  else addNonzero a b

/-- ADDW, `rev(ADD(rev(x), rev(y)))`, raising exactly when ADD does (42_adder.md R99). -/
def addWire (x y : Wire) : Except RangeError Wire :=
  match fpAdd x.rev y.rev with
  | .ok k => .ok k.rev
  | .error e => .error e

/-- ADD on the ports: the sum of `addA` and `addB`, or the error, to its caller (42_adder.md R83, 10_state.md R22). -/
def execAdd (s : State) : Host.Outcome State Fault Refusal := .next (s.deliver (.sum (fpAdd s.addA s.addB)))

end Sys2Proof.Machine
end

