-- ==== Sys2Proof/Machine/Codec.lean ====
section
/-! DEFINITION. The Codec family: ENCODE (`fp_encoder`) and DECODE (`fp_decoder`), 40_codec.md. -/

namespace Sys2Proof.Machine

/-! ### ENCODE -/

/-- The first loop of 40_codec.md R57: while `m >= 1/2`, halve and count up. The first argument bounds the iterations
(log entry 9). -/
def halveLoop : Nat → ℚ → ℤ → ℚ × ℤ
  | 0, m, c => (m, c)
  | n + 1, m, c => if 1 / 2 ≤ m then halveLoop n (m / 2) (c + 1) else (m, c)

/-- The second loop of 40_codec.md R57: while `m < 1/2`, double and count down. -/
def doubleLoop : Nat → ℚ → ℤ → ℚ × ℤ
  | 0, m, c => (m, c)
  | n + 1, m, c => if m < 1 / 2 then doubleLoop n (m * 2) (c - 1) else (m, c)

/-- The normalisation of 40_codec.md R57, R58, for a non-zero `v`: the two loops in order, on `|v|` with the counter
at 0. A numerator of `b` bits is halved at most `b + 1` times and a denominator of `b` bits asks for at most `b`
doublings, so the bounds never cut a loop short. DEDUCED, log entry 9; safe. -/
def normalise (v : ℚ) : ℚ × ℤ :=
  let halved := halveLoop (v.num.natAbs.log2 + 2) |v| 0
  doubleLoop (v.den.log2 + 1) halved.1 halved.2

/-- One step of mantissa extraction: the byte `floor(m * 256)` and what remains, `m * 256 - byte` (40_codec.md R59). -/
def extractByte (m : ℚ) : Byte × ℚ :=
  let byte := (m * 256).floor
  (BitVec.ofInt 8 byte, m * 256 - byte)

/-- ENCODE on a rational operand, step by step (40_codec.md R57). The zero test comes first (R109 of
60_exceptions.md); what remains after the third byte is dropped, unrounded (R59). -/
def fpEncode (v : ℚ) : Except RangeError Wire :=
  if v = 0 then .ok Wire.zero
  else
    let sign : BitVec 1 := if v < 0 then 1 else 0
    let normal := normalise v
    let high := extractByte normal.1
    let mid := extractByte high.2
    let low := extractByte mid.2
    let e : ℤ := normal.2 + Config.expBias
    if e < 1 ∨ 255 < e then raise .encExp
    else .ok ⟨low.1, mid.1, packSign high.1 sign, BitVec.ofInt 8 e⟩

/-- ENCODE on a value of any native type: `toQ` first, then the operation on rationals. `none` where the value is no
finite number: outside ENCODE's domain, no result and no error (40_codec.md R64, R65, U3). -/
def encodeNative {ν : Type} (F : NativeFormat ν) (v : ν) : Option (Except RangeError Wire) :=
  match F.toQ v with
  | some q => some (fpEncode q)
  | none => none

/-- ENCODE: the operand on `encValue` to its caller (40_codec.md R57, 10_state.md R22). A value that is no finite number
is refused (R65, U3). -/
def execEncode (s : State) : Host.Outcome State Fault Refusal :=
  match encodeNative Native.format s.encValue with
  | some r => .next (s.deliver (.enc r))
  | none => .refused (.valueNotFinite s.encValue)

/-! ### DECODE -/

/-- DECODE of a wire-layout record, step by step (40_codec.md R66). The sign is read before the implied bit is restored
(R67), and the division is exact (R68). -/
def fpDecode (w : Wire) : ℚ :=
  if w.isZero then 0
  else
    let te : ℤ := (w.exponent.toNat : ℤ) - Config.expBias
    let sign := signBit w.mantissaHigh
    let high := restoreImplied w.mantissaHigh
    let m := assemble high w.mantissaMid w.mantissaLow
    let r : ℚ := (m : ℚ) / 2 ^ ((Config.mantBits : ℤ) - te)
    if sign = 1 then -r else r

/-- DECODE to a value of any native type (40_codec.md R68). -/
def decodeNative {ν : Type} (F : NativeFormat ν) (w : Wire) : ν := F.ofQ (fpDecode w)

/-- DECODE: the record on `decIn` to its caller (40_codec.md R66, 10_state.md R22). It cannot fail (60_exceptions.md
R107). -/
def execDecode (s : State) : Host.Outcome State Fault Refusal :=
  .next (s.deliver (.value (decodeNative Native.format s.decIn)))

end Sys2Proof.Machine
end

