-- ==== Sys2Proof/Machine/Ports.lean ====
section
/-! DEFINITION. The output ports of 10_state.md R22. None is stored: each is, at every instant, what its block's rule
gives for the present input levels (R24, 70_reset_and_hazards.md R116), and so are the `range_err` outputs
(60_exceptions.md R104, 10_state.md R15). And an invocation as a total function of the input levels (R21). All of it for
any native type (00_scope.md R9). -/

namespace Sys2Proof.Machine

/-! ### For any native type -/

section
variable {ν : Type}

/-- `fp_encoder.enc` with its `range_err`; `none` while the value is no finite number, for which the spec says nothing of
the outputs (40_codec.md R65). -/
def Inputs.encPort (F : NativeFormat ν) (p : Inputs ν) : Option (Except RangeError Wire) := encodeNative F p.encValue

/-- `fp_encoder.range_err` (60_exceptions.md R104); `none` while the value is no finite number. -/
def Inputs.encRangeErrPort (F : NativeFormat ν) (p : Inputs ν) : Option (BitVec 1) := (p.encPort F).map rangeErr

/-- `fp_decoder.value`. -/
def Inputs.valuePort (F : NativeFormat ν) (p : Inputs ν) : ν := decodeNative F p.decIn

/-- The level of `positions` at the shifter: tied to 1 while the wrapper selects SHR1, else what is presented
(10_state.md R22, 41_shifter.md R73). DESIGN CHOICE, log entry 12; safe. -/
def Inputs.tiedPositions (p : Inputs ν) : Nat :=
  match decodeSelector p.op with
  | .ok .shr1 => 1
  | _ => p.shPositions

/-- `byte_shifter_with_carry.dout`. -/
def Inputs.doutPort (p : Inputs ν) : ByteSeq := shr p.shDin p.tiedPositions

/-- `fp_adder_encoded_domain.sum` with its `range_err`. -/
def Inputs.sumPort (p : Inputs ν) : Except RangeError Work := fpAdd p.addA p.addB

/-- `fp_adder_encoded_domain.range_err` (60_exceptions.md R104). -/
def Inputs.addRangeErrPort (p : Inputs ν) : BitVec 1 := rangeErr p.sumPort

/-- One invocation as the spec asks a model to have it: a function of the input levels alone, answering the result or the
error, and no state (10_state.md R21). `none` only for ENCODE of a value that is no finite number (40_codec.md R65). -/
def invoke (F : NativeFormat ν) (i : Instr) (p : Inputs ν) : Option (Reply ν) :=
  match i with
  | .encode => (encodeNative F p.encValue).map .enc
  | .decode => some (.value (decodeNative F p.decIn))
  | .shr1 => some (.dout (shr1 p.shDin))
  | .shr => some (.dout (shr p.shDin p.shPositions))
  | .add => some (.sum (fpAdd p.addA p.addB))

/-- What the output ports of the block of `i` show, as the reply a caller reads off them. -/
def Inputs.portReply (F : NativeFormat ν) (i : Instr) (p : Inputs ν) : Option (Reply ν) :=
  match i.block with
  | .fpEncoder => (p.encPort F).map .enc
  | .fpDecoder => some (.value (p.valuePort F))
  | .byteShifterWithCarry => some (.dout p.doutPort)
  | .fpAdderEncodedDomain => some (.sum p.sumPort)

end

/-! ### At the machine's native type -/

/-- The present level of `fp_encoder.enc` with its `range_err`. -/
def State.encOut (s : State) : Option (Except RangeError Wire) := s.toInputs.encPort Native.format

/-- The present level of `fp_encoder.range_err`. -/
def State.encRangeErr (s : State) : Option (BitVec 1) := s.toInputs.encRangeErrPort Native.format

/-- The present level of `fp_decoder.value`. -/
def State.decValue (s : State) : Native := s.toInputs.valuePort Native.format

/-- The present level of `byte_shifter_with_carry.dout`. -/
def State.shDout (s : State) : ByteSeq := s.toInputs.doutPort

/-- The present level of `fp_adder_encoded_domain.sum` with its `range_err`. -/
def State.addSum (s : State) : Except RangeError Work := s.toInputs.sumPort

/-- The present level of `fp_adder_encoded_domain.range_err`. -/
def State.addRangeErr (s : State) : BitVec 1 := s.toInputs.addRangeErrPort

/-- The adder's present output read with the byte lanes crossed: the output half of ADDW (42_adder.md R99). -/
def State.sumWire (s : State) : Except RangeError Wire :=
  match s.addSum with
  | .ok k => .ok k.rev
  | .error e => .error e

end Sys2Proof.Machine
end

