-- ==== Sys2Proof/Machine/Dispatch.lean ====
section
/-! DEFINITION. One arm per operation, each a call of its meaning. -/

namespace Sys2Proof.Machine

/-- One invocation of one operation (10_state.md R21). -/
def exec (i : Instr) (s : State) : Host.Outcome State Fault Refusal :=
  match i with
  | .encode => Sys2Proof.Machine.execEncode s
  | .decode => Sys2Proof.Machine.execDecode s
  | .shr1 => Sys2Proof.Machine.execShr1 s
  | .shr => Sys2Proof.Machine.execShr s
  | .add => Sys2Proof.Machine.execAdd s

end Sys2Proof.Machine
end

