-- ==== Sys2Proof/Machine/Step.lean ====
section
/-! DEFINITION. One step: the operation the select input names, invoked once on the present port levels. There is no
program counter and no fetch (10_state.md R14); log entry 2. -/

namespace Sys2Proof.Machine

/-- One step of the wrapper around the four blocks: decode the select input (30_encoding.md R53) and invoke. A reserved
selector is refused by name (R54). -/
def step (s : State) : Host.Outcome State Fault Refusal :=
  match decodeSelector s.op with
  | .ok i => exec i s
  | .error (.reservedSelector op) => .refused (.reservedSelector op)

/-- A word of the opcode table put on the select input, where `step` reads its next operation; the ports' levels stay
(log entries 2, 3). -/
def State.withFetchWord (s : State) (_nbits w : Nat) : State := s.presentOp (selectorOfWord w)

end Sys2Proof.Machine
end

