-- ==== Sys2Proof/Machine/Binary64.lean ====
section
/-! DEFINITION. The 64-bit IEEE 754 native format of 93_implementation_defined.md G2, a passage the spec marks as general
knowledge: one more value of the model argument `Native` (00_scope.md R9). No step uses it. PRESUMED, log entry 18;
safe. -/

namespace Sys2Proof

/-- The native value of a 64-bit IEEE 754 pattern, for an integrator who puts that format on the `value` ports
(93_implementation_defined.md G2): sign bit 63, exponent field bits 62 to 52, fraction bits 51 to 0. PRESUMED,
log entry 18; safe. -/
def Native.ofBinary64 (bits : BitVec 64) : Native :=
  let negative := bits.getLsbD 63
  let expField := (bits.extractLsb' 52 11).toNat
  let fraction := (bits.extractLsb' 0 52).toNat
  let magnitude : ℚ :=
    if expField = 0 then (fraction : ℚ) * 2 ^ (-1074 : ℤ)
    else ((2 ^ 52 + fraction : ℕ) : ℚ) * 2 ^ ((expField : ℤ) - 1075)
  if expField = 2047 then (if fraction = 0 then .infinite negative else .nan)
  else if expField = 0 ∧ fraction = 0 then (if negative then .negZero else .finite 0)
  else .finite (if negative then -magnitude else magnitude)

/-- The 64-bit pattern of a rational, for the results of DECODE, which it holds exactly (93_implementation_defined.md G2);
beyond 53 significant bits or the format's range it has no meaning and no use. PRESUMED, log entry 18; safe. -/
def binary64OfRat (q : ℚ) : BitVec 64 :=
  if q = 0 then 0
  else
    let sign : BitVec 1 := if q < 0 then 1 else 0
    let normal := Machine.normalise q
    (sign ++ BitVec.ofInt 11 (normal.2 + 1022)) ++ BitVec.ofInt 52 ((2 * normal.1 - 1) * 2 ^ 52).floor

/-- 64-bit IEEE 754 patterns as a native format (93_implementation_defined.md G2). -/
def NativeFormat.binary64 : NativeFormat (BitVec 64) := ⟨fun bits => (Native.ofBinary64 bits).toQ, binary64OfRat⟩

end Sys2Proof
end

