-- ==== Sys2Proof/Safety.lean ====
section
/-! DEFINITION. The terms claims are made in: what an invocation may change, when a step completes, what the output
ports show and an invocation delivers, and the closed forms the spec gives beside its step-by-step algorithms. No step uses any of it. -/

namespace Sys2Proof.Machine

/-! ### What an invocation may change and what it reads (10_state.md R20, R21) -/

/-- The input levels of one block agree. -/
def SameBlockInputs {ν : Type} (b : Block) (p p' : Inputs ν) : Prop :=
  match b with
  | .fpEncoder => p'.encValue = p.encValue
  | .fpDecoder => p'.decIn = p.decIn
  | .byteShifterWithCarry => p'.shDin = p.shDin ∧ p'.shPositions = p.shPositions
  | .fpAdderEncodedDomain => p'.addA = p.addA ∧ p'.addB = p.addB

/-- The reply is one of this block's. -/
def Reply.isOf {ν : Type} (b : Block) (r : Reply ν) : Prop :=
  match r with
  | .nothing => False
  | .enc _ => b = .fpEncoder
  | .value _ => b = .fpDecoder
  | .dout _ => b = .byteShifterWithCarry
  | .sum _ => b = .fpAdderEncodedDomain

/-! ### When a step completes -/

/-- The select input names an operation, and if that is ENCODE its operand is a finite number (30_encoding.md R54,
40_codec.md R65). -/
def Ready (s : State) : Prop := selectorWf s.op = true ∧ (s.op = 0 → s.encValue.wf = true)

/-! ### What the output ports show and what is delivered -/

/-- What `fp_encoder` can show or deliver: a record whose exponent byte is 0 only if it is the canonical zero
(30_encoding.md R48), or the error ENC_EXP (60_exceptions.md R102). -/
def EncoderResultWf (r : Except RangeError Wire) : Prop :=
  match r with
  | .ok w => w.exponent = 0 → w = Wire.zero
  | .error e => e = .encExp

/-- What `fp_decoder` can show or deliver: 0 or a number of magnitude `2^-128` to `2^127 - 2^103`, never another kind of
native value (30_encoding.md R50, 40_codec.md R66). -/
def DecoderResultWf (v : Native) : Prop :=
  ∃ q : ℚ, v = .finite q ∧ (q = 0 ∨ (2 ^ (-128 : ℤ) ≤ |q| ∧ |q| ≤ 2 ^ 127 - 2 ^ 103))

/-- What `byte_shifter_with_carry` can show or deliver for an input: as many bytes, standing for no larger number
(41_shifter.md R77, R79). -/
def ShifterResultWf (din d : ByteSeq) : Prop := d.length = din.length ∧ be d ≤ be din

/-- What `fp_adder_encoded_domain` can show or deliver for two operands: an operand where the other is zero; else a
record with sign bit 0 and non-zero exponent byte, or the error ADD_EXP (42_adder.md R84, R91, R96, R98). -/
def AdderResultWf (a b : Work) (r : Except RangeError Work) : Prop :=
  if b.exponent = 0 then r = .ok a
  else if a.exponent = 0 then r = .ok b
  else
    match r with
    | .ok k => signBit k.mantissaHigh = 0 ∧ k.exponent ≠ 0
    | .error e => e = .addExp

/-- The output ports, at the present input levels. -/
def OutputsWf (s : State) : Prop :=
  (∀ r, s.encOut = some r → EncoderResultWf r) ∧ DecoderResultWf s.decValue ∧ ShifterResultWf s.shDin s.shDout ∧
    AdderResultWf s.addA s.addB s.addSum

/-- The invariant of what the embedding program holds, whatever it presents meanwhile: a well-formed record or ENC_EXP of
the encoder, a number in range of the decoder, of the adder no other error than ADD_EXP. -/
def DeliveredWf (s : State) : Prop :=
  match s.delivered with
  | .nothing => True
  | .enc r => EncoderResultWf r
  | .value v => DecoderResultWf v
  | .dout _ => True
  | .sum (.ok _) => True
  | .sum (.error e) => e = .addExp

/-- What is held fits the present operands of the block it came from. -/
def DeliveredFits (s : State) : Prop :=
  match s.delivered with
  | .nothing => True
  | .enc r => EncoderResultWf r
  | .value v => DecoderResultWf v
  | .dout d => ShifterResultWf s.shDin d
  | .sum r => AdderResultWf s.addA s.addB r

/-! ### Closed forms -/

/-- `v[hi:lo]` of 00_scope.md R11. -/
def slice (v hi lo : Nat) : Nat := v / 2 ^ lo % 2 ^ (hi - lo + 1)

/-- `k` is the integer with `2^(k-1) <= |q| < 2^k` (40_codec.md R62). -/
def BinaryScale (q : ℚ) (k : ℤ) : Prop := 2 ^ (k - 1) ≤ |q| ∧ |q| < 2 ^ k

/-- `M = floor(|q| * 2^(24-k))` (40_codec.md R62). -/
def scaledMantissa (q : ℚ) (k : ℤ) : Nat := ⌊|q| * 2 ^ (24 - k)⌋.toNat

/-- The record of ENCODE's closed form: `[M[7:0], M[15:8], M[22:16] | (sign << 7), k + 128]` (40_codec.md R62). -/
def closedRecord (q : ℚ) (k : ℤ) : Wire :=
  let m := scaledMantissa q k
  ⟨BitVec.ofNat 8 (slice m 7 0), BitVec.ofNat 8 (slice m 15 8),
    BitVec.ofNat 8 (slice m 22 16) ||| (if q < 0 then 0x80 else 0), BitVec.ofInt 8 (k + 128)⟩

/-- The operand with the smaller exponent byte, `a` on a tie (42_adder.md R85). -/
def smallerOf (a b : Work) : Work := (orderByExponent a b).1

/-- The other operand (42_adder.md R85). -/
def higherOf (a b : Work) : Work := (orderByExponent a b).2

/-- `exp_diff` of two operands (42_adder.md R85). -/
def expDiffOf (a b : Work) : Nat := expDiff (smallerOf a b) (higherOf a b)

/-- The byte-wise sum of two operands (42_adder.md R88). -/
def sumsOf (a b : Work) : SumBytes := sumBytes (higherOf a b) (shr (alignBuffer (smallerOf a b)) (expDiffOf a b))

/-- `carry1` of two operands (42_adder.md R88). -/
def carry1Of (a b : Work) : Nat := carryOut (sumsOf a b).byte1Sum

/-- `S = HM + floor(SM / 2^d)` (42_adder.md R92). -/
def alignedSum (a b : Work) : Nat := (higherOf a b).mantissa + (smallerOf a b).mantissa / 2 ^ expDiffOf a b

/-- The closed form of ADD's sum path (42_adder.md R92). -/
def closedSum (a b : Work) : Except RangeError Work :=
  let sum := alignedSum a b
  let carry := if 2 ^ 24 ≤ sum then 1 else 0
  let t := if carry = 1 then slice sum 22 0 / 2 else slice sum 22 0
  let rexp := (higherOf a b).exponent.toNat + carry
  if rexp = 256 then .error .addExp
  else .ok ⟨BitVec.ofNat 8 rexp, BitVec.ofNat 8 (slice t 22 16), BitVec.ofNat 8 (slice t 15 8),
    BitVec.ofNat 8 (slice t 7 0)⟩

/-- `|val(a)| + |val(b)|` (42_adder.md R93). -/
def magnitudeSum (a b : Work) : ℚ := |a.val| + |b.val|

/-- `u`, the weight of `higher`'s last mantissa bit (42_adder.md R93). -/
def lastBitWeight (a b : Work) : ℚ := 2 ^ (((higherOf a b).exponent.toNat : ℤ) - 152)

/-- The record with its sign bit cleared (42_adder.md R94). -/
def clearSign (k : Work) : Work := { k with mantissaHigh := k.mantissaHigh &&& 0x7F }

end Sys2Proof.Machine
end

