-- ==== Sys2Proof/Certificates/Slice0/Obligations.lean ====
section
/-! DEFINITION. The statements for the provers. Each docstring names the rule or section of spec/ it rests on, and says
where the spec marks the fact as its own inference. -/

open Sys2Proof Sys2Proof.Machine

/-! ### The selector and the step -/

/-- 30_encoding.md section 5: selector values 5, 6 and 7 are refused by name, the others select an operation, and no
record pattern is illegal (DECODE and ADD answer for every one). Two clauses are the model's: that a step refuses a
reserved select input is log entry 2 (DESIGN CHOICE: a step decodes the select input), and that ADD answers a next state
also where it raises is log entry 6 (DEDUCED). -/
def Obligations.SelectorValuesFiveToSevenRefused : Prop :=
  (∀ op : BitVec 3, 5 ≤ op.toNat → decodeSelector op = .error (.reservedSelector op)) ∧
  (∀ op : BitVec 3, op.toNat < 5 → ∃ i, decodeSelector op = .ok i) ∧
  (∀ s : State, 5 ≤ s.op.toNat → step s = .refused (.reservedSelector s.op)) ∧
  (∀ (s : State) (w : Wire) (a b : Work),
    (∃ t, exec .decode (s.presentRecord w) = .next t) ∧ (∃ t, exec .add (s.presentOperands a b) = .next t))

/-- 30_encoding.md section 5: the selector's decoder and encoder agree, in both directions. -/
def Obligations.SelectorRoundTrip : Prop :=
  (∀ i : Instr, i.wf = true → decodeSelector (encodeSelector i) = .ok i) ∧
  (∀ (op : BitVec 3) (i : Instr), decodeSelector op = .ok i → encodeSelector i = op)

/-- 30_encoding.md section 5, the table of R53: the selector words, bit by bit. A word's bits above bit 2 have no wire:
the model's choice, log entry 3. -/
def Obligations.SelectorWordsSelect : Prop :=
  decodeTableWord 8 0b000 = some .encode ∧ decodeTableWord 8 0b001 = some .decode ∧
  decodeTableWord 8 0b010 = some .shr1 ∧ decodeTableWord 8 0b011 = some .shr ∧
  decodeTableWord 8 0b100 = some .add ∧ decodeTableWord 8 0b101 = none ∧
  decodeTableWord 8 0b110 = none ∧ decodeTableWord 8 0b111 = none

/-- 10_state.md section 3, 30_encoding.md section 5: a step is one invocation of the selected operation and nothing
around it. That a step reads the select input is the model's choice, log entry 2. -/
def Obligations.StepRunsSelectedOperation : Prop :=
  ∀ (s : State) (i : Instr), decodeSelector s.op = .ok i → step s = exec i s

/-- 30_encoding.md section 5, 40_codec.md section 1, 60_exceptions.md sections 1 and 2: a step completes exactly when the
selector names an operation and ENCODE's operand is a finite number; no step faults. Both halves are the model's: that
the select input decides a step's answer is log entry 2 (DESIGN CHOICE), that a raised error is a next state and nothing
faults is log entry 6 (DEDUCED). -/
def Obligations.StepCompletesExactlyWhenReady : Prop :=
  ∀ s : State, ((∃ t, step s = .next t) ↔ Ready s) ∧ (∀ f, step s ≠ .fault f)

/-! ### What an invocation changes and what it reads -/

/-- 10_state.md R20: no operation modifies its operands; when ADD returns an operand, the result equals it bit for
bit. With it the frame of all five operations: no input level and no output level changes, and what is delivered is a
result of the operation's own block. -/
def Obligations.InvocationDrivesOnlyItsOutput : Prop :=
  (∀ (i : Instr) (s t : State), exec i s = .next t →
    t.toInputs = s.toInputs ∧
    (t.encOut = s.encOut ∧ t.decValue = s.decValue ∧ t.shDout = s.shDout ∧ t.addSum = s.addSum) ∧
    ∃ r : Reply Native, r.isOf i.block ∧ t = s.deliver r) ∧
  (∀ s t : State, exec .add s = .next t → s.addB.exponent = 0 → t.delivered = .sum (.ok s.addA)) ∧
  (∀ s t : State, exec .add s = .next t → s.addB.exponent ≠ 0 → s.addA.exponent = 0 →
    t.delivered = .sum (.ok s.addB))

/-- 10_state.md section 3: an invocation is a function of the input levels that answers the result or the error, total but
for ENCODE outside its domain (40_codec.md section 1), for every native type; the hardware's own state has one value, and
`exec` is that function, its answer delivered. -/
def Obligations.InvocationIsAFunctionOfTheInputs : Prop :=
  (∀ (i : Instr) (s : State), exec i s =
    match invoke Native.format i s.toInputs with
    | some r => .next (s.deliver r)
    | none => .refused (.valueNotFinite s.encValue)) ∧
  (∀ (ν : Type) (F : NativeFormat ν) (i : Instr) (p : Inputs ν),
    (invoke F i p = none ↔ i = .encode ∧ F.toQ p.encValue = none) ∧
    ∀ r, invoke F i p = some r → r.isOf i.block) ∧
  ∀ m m' : MachineState, m = m'

/-- 10_state.md section 3: the result of an invocation is a function of that block's inputs alone, for every native type:
not of another block's inputs, of the select input, or of what was delivered before. -/
def Obligations.OutputDependsOnOwnInputsOnly : Prop :=
  (∀ (ν : Type) (F : NativeFormat ν) (i : Instr) (p p' : Inputs ν), SameBlockInputs i.block p p' →
    invoke F i p = invoke F i p') ∧
  ∀ (i : Instr) (s s' t t' : State), SameBlockInputs i.block s.toInputs s'.toInputs →
    exec i s = .next t → exec i s' = .next t' → t.delivered = t'.delivered

/-- 20_memory.md section 3, 60_exceptions.md section 2: an invocation after another, a failed one included, answers
exactly as if the other had not happened. -/
def Obligations.InvocationsAreIndependent : Prop :=
  ∀ (i j : Instr) (s t : State), exec i s = .next t → exec j t = exec j s

/-- The invariant of the output ports and of what has been delivered holds at the model's starting levels (the levels are
the model's choice, log entry 4). -/
def Obligations.ResetOutputsWellFormed : Prop := OutputsWf State.reset ∧ DeliveredWf State.reset

/-- Every step keeps the invariant of the output ports and of what the embedding program holds, and so does presenting
operands between steps; and what a step delivers fits the operands it was given. 30_encoding.md section 3 for the
encoder, 40_codec.md section 2 for the decoder, 41_shifter.md section 2 for the shifter, 42_adder.md section 3 for the
adder (parts of it the spec marks as derived). That State holds what was last delivered is the model's choice, log
entry 1. -/
def Obligations.StepKeepsOutputsWellFormed : Prop :=
  (∀ s t : State, OutputsWf s ∧ DeliveredWf s → step s = .next t → OutputsWf t ∧ DeliveredWf t) ∧
  (∀ (s : State) (op : BitVec 3) (v : Native) (w : Wire) (d : ByteSeq) (n : Nat) (a b : Work), DeliveredWf s →
    DeliveredWf (s.presentOp op) ∧ DeliveredWf (s.presentValue v) ∧ DeliveredWf (s.presentRecord w) ∧
    DeliveredWf (s.presentSequence d n) ∧ DeliveredWf (s.presentOperands a b)) ∧
  (∀ s t : State, step s = .next t → DeliveredFits t)

/-- 10_state.md section 5, 70_reset_and_hazards.md section 1: outputs are not stored; at every instant each is what its
rule gives for the present inputs, and a step moves none. While SHR1 is selected `positions` is tied to 1 (10_state.md
section 4); that the select input ties it is the model's choice, log entry 12. -/
def Obligations.OutputsFollowPresentInputs : Prop :=
  (∀ (s : State) (q : ℚ), s.encValue.toQ = some q → s.encOut = some (fpEncode q)) ∧
  (∀ s : State, s.decValue = .finite (fpDecode s.decIn) ∧ s.addSum = fpAdd s.addA s.addB ∧
    (decodeSelector s.op = .ok .shr1 → s.shDout = shr1 s.shDin) ∧
    (decodeSelector s.op ≠ .ok .shr1 → s.shDout = shr s.shDin s.shPositions)) ∧
  (∀ (s : State) (q : ℚ) (w : Wire) (a b : Work),
    (s.presentValue (.finite q)).encOut = some (fpEncode q) ∧
    (s.presentRecord w).decValue = .finite (fpDecode w) ∧ (s.presentOperands a b).addSum = fpAdd a b) ∧
  (∀ s t : State, step s = .next t →
    t.encOut = s.encOut ∧ t.decValue = s.decValue ∧ t.shDout = s.shDout ∧ t.addSum = s.addSum ∧
    t.encRangeErr = s.encRangeErr ∧ t.addRangeErr = s.addRangeErr)

/-- 60_exceptions.md section 1, 10_state.md section 1: `range_err` is 1 exactly when the operation on the present inputs
raises, with the error in place of a result, and 0 when it gives a result; it depends on the present operands alone and
is not latched: whatever was invoked before, it is what the operands presented now give. Outside ENCODE's domain no level
is claimed (40_codec.md section 1). -/
def Obligations.RangeErrIsNotLatched : Prop :=
  (∀ s : State,
    (s.encRangeErr = some 1 ↔ ∃ e, s.encOut = some (.error e)) ∧
    (s.encRangeErr = some 0 ↔ ∃ w, s.encOut = some (.ok w)) ∧
    (s.encRangeErr = none ↔ s.encValue.toQ = none) ∧
    (s.addRangeErr = 1 ↔ ∃ e, s.addSum = .error e) ∧ (s.addRangeErr = 0 ↔ ∃ k, s.addSum = .ok k)) ∧
  (∀ s s' : State, (s.encValue = s'.encValue → s.encRangeErr = s'.encRangeErr) ∧
    (s.addA = s'.addA → s.addB = s'.addB → s.addRangeErr = s'.addRangeErr)) ∧
  (∀ (i : Instr) (s t : State), exec i s = .next t →
    (t.presentValue (.finite 1)).encRangeErr = some 0 ∧ (t.presentValue (.finite (2 ^ 127))).encRangeErr = some 1 ∧
    (∀ a b : Work, b.exponent = 0 → (t.presentOperands a b).addRangeErr = 0) ∧
    (t.presentOperands ⟨0xFF, 0, 0, 0⟩ ⟨0xFF, 0, 0, 0⟩).addRangeErr = 1)

/-- 10_state.md sections 3 and 4: what an invocation delivers is what the ports of its block show for the operands
presented. That the select input stands for the operation, and ties `positions` to 1 for SHR1, is the model's choice, log
entries 2 and 12. -/
def Obligations.DeliveredIsWhatThePortsShow : Prop :=
  (∀ (ν : Type) (F : NativeFormat ν) (i : Instr) (p : Inputs ν), decodeSelector p.op = .ok i →
    p.portReply F i = invoke F i p) ∧
  (∀ (i : Instr) (s t : State), decodeSelector s.op = .ok i → exec i s = .next t →
    s.toInputs.portReply Native.format i = some t.delivered)

/-- In every state the output ports satisfy their invariant: the encoder shows the canonical zero, a record with non-zero
exponent byte or ENC_EXP, the decoder a number in range, the shifter no longer and no larger a sequence, the adder a
passed operand, a record with sign bit 0 and non-zero exponent byte, or ADD_EXP. -/
def Obligations.OutputsAreWellFormed : Prop := ∀ s : State, OutputsWf s

/-! ### The record -/

/-- 30_encoding.md R40: the layouts are converted by reversal, `k[i] = w[3-i]`, and reversal is its own inverse. -/
def Obligations.LayoutsAreReversals : Prop :=
  (∀ w : Wire, w.rev.bytes = w.bytes.reverse ∧ w.rev.rev = w ∧
    ∀ i, i < 4 → byteAt w.rev.bytes i = byteAt w.bytes (3 - i)) ∧
  (∀ k : Work, k.rev.bytes = k.bytes.reverse ∧ k.rev.rev = k)

/-- 20_memory.md section 1 and 10_state.md section 4: the 32-bit views of the two layouts are one number (the spec marks
it derived), and it is the wire record's flat bus. -/
def Obligations.RecordViewsAgree : Prop :=
  ∀ w : Wire, w.le32 = w.exponent.toNat * 2 ^ 24 + w.mantissaHigh.toNat * 2 ^ 16 + w.mantissaMid.toNat * 2 ^ 8 +
      w.mantissaLow.toNat ∧
    w.rev.be32 = w.le32 ∧ flatBus w.bytes = w.le32

/-- 30_encoding.md R46: both formulas of the reconstructed mantissa, and its range, for every choice of the bytes. -/
def Obligations.ReconstructedMantissaRange : Prop :=
  ∀ mh mm ml : Byte,
    mantissa mh mm ml = (mh ||| 0x80).toNat * 65536 + mm.toNat * 256 + ml.toNat ∧
    mantissa mh mm ml = 2 ^ 23 + (mh &&& 0x7F).toNat * 65536 + mm.toNat * 256 + ml.toNat ∧
    2 ^ 23 ≤ mantissa mh mm ml ∧ mantissa mh mm ml ≤ 2 ^ 24 - 1 ∧
    (1 / 2 : ℚ) ≤ (mantissa mh mm ml : ℚ) / 2 ^ 24 ∧ (mantissa mh mm ml : ℚ) / 2 ^ 24 < 1

/-! ### ENCODE -/

/-- 40_codec.md R58: the first loop leaves `m` in `[1/4, 1/2)` when it runs, the second then runs once; when
`|v| < 1/2` the first does not run; both end for every non-zero `v`, with `|v| = m * 2^c` and `m` in `[1/2, 1)`. -/
def Obligations.NormalisationLoopsEnd : Prop :=
  ∀ v : ℚ, v ≠ 0 →
    (1 / 2 ≤ |v| → ∃ (m : ℚ) (c : ℤ), halveLoop (v.num.natAbs.log2 + 2) |v| 0 = (m, c) ∧ 1 / 4 ≤ m ∧ m < 1 / 2 ∧
      normalise v = (m * 2, c - 1)) ∧
    (|v| < 1 / 2 → halveLoop (v.num.natAbs.log2 + 2) |v| 0 = (|v|, 0)) ∧
    1 / 2 ≤ (normalise v).1 ∧ (normalise v).1 < 1 ∧ |v| = (normalise v).1 * 2 ^ (normalise v).2

/-- 40_codec.md section 1, the closed form the spec marks as derived: for every finite operand ENCODE completes, and
drives the canonical zero, the error, or the record of the closed form. A non-zero operand has exactly one `k`. -/
def Obligations.EncodeMatchesClosedForm : Prop :=
  ∀ (s : State) (q : ℚ), s.encValue.toQ = some q →
    (q = 0 → exec .encode s = .next (s.deliver (.enc (.ok Wire.zero)))) ∧
    (q ≠ 0 → ∃! k : ℤ, BinaryScale q k) ∧
    (∀ k : ℤ, BinaryScale q k →
      2 ^ 23 ≤ scaledMantissa q k ∧ scaledMantissa q k ≤ 2 ^ 24 - 1 ∧
      exec .encode s =
        .next (s.deliver (.enc (if k < -127 ∨ 127 < k then .error .encExp else .ok (closedRecord q k)))))

/-- 40_codec.md R61 and 60_exceptions.md R102: with `c` the counter after normalisation, ENCODE of a non-zero operand
raises exactly when `c` is outside -127 to 127, that is when `|v| < 2^-128` or `|v| >= 2^127`; otherwise the exponent
byte is `c + 128`. Zero never raises, only ENC_EXP is raised, and by no other operation. -/
def Obligations.EncodeRaisesExactlyOutOfRange : Prop :=
  (∀ (s : State) (q : ℚ), s.encValue.toQ = some q →
    (s.encRangeErr = some 1 ↔ q ≠ 0 ∧ ((normalise q).2 < -127 ∨ 127 < (normalise q).2)) ∧
    (s.encRangeErr = some 1 ↔ (0 < |q| ∧ |q| < 2 ^ (-128 : ℤ)) ∨ 2 ^ (127 : ℤ) ≤ |q|) ∧
    (s.encRangeErr = some 1 → exec .encode s = .next (s.deliver (.enc (.error .encExp)))) ∧
    (s.encRangeErr ≠ some 1 → ∃ w : Wire, exec .encode s = .next (s.deliver (.enc (.ok w))) ∧
      (q ≠ 0 → (w.exponent.toNat : ℤ) = (normalise q).2 + 128))) ∧
  (∀ (i : Instr) (s t : State), exec i s = .next t → t.delivered = .enc (.error .encExp) → i = .encode) ∧
  (∀ s t : State, exec .add s = .next t → t.delivered ≠ .sum (.error .encExp))

/-- 40_codec.md R65: a native infinity or NaN is refused; a zero of either sign gives the canonical zero. -/
def Obligations.EncodeDomain : Prop :=
  ∀ s : State,
    (s.encValue = .nan → exec .encode s = .refused (.valueNotFinite .nan)) ∧
    (∀ negative, s.encValue = .infinite negative → exec .encode s = .refused (.valueNotFinite (.infinite negative))) ∧
    (s.encValue = .negZero ∨ s.encValue = .finite 0 → exec .encode s = .next (s.deliver (.enc (.ok Wire.zero))))

/-- 30_encoding.md R48: of every record ENCODE produces, the exponent byte is 0 exactly when the value is 0, and then
every byte is 0; for a non-zero value the mantissa is normalised. ENCODE of 0 is the all-zero record. -/
def Obligations.EncodedRecordInvariant : Prop :=
  (∀ s : State, s.encValue.toQ = some 0 → exec .encode s = .next (s.deliver (.enc (.ok ⟨0x00, 0x00, 0x00, 0x00⟩)))) ∧
  (∀ (s t : State) (q : ℚ) (w : Wire), s.encValue.toQ = some q → exec .encode s = .next t →
    t.delivered = .enc (.ok w) →
    (w.exponent = 0 ↔ q = 0) ∧ (q = 0 → w = ⟨0x00, 0x00, 0x00, 0x00⟩) ∧
    (q ≠ 0 → 2 ^ 23 ≤ w.mantissa ∧ w.mantissa ≤ 2 ^ 24 - 1))

/-- 40_codec.md section 1, the truncation law the spec marks as derived: ENCODE rounds the magnitude toward zero to 24
significant bits and keeps the sign. -/
def Obligations.EncodeTruncatesTowardZero : Prop :=
  ∀ (s : State) (q : ℚ) (k : ℤ), s.encValue.toQ = some q → BinaryScale q k → -127 ≤ k → k ≤ 127 →
    ∃ w : Wire, exec .encode s = .next (s.deliver (.enc (.ok w))) ∧
      w.val = (if q < 0 then -1 else 1) * (⌊|q| * 2 ^ (24 - k)⌋ : ℚ) * 2 ^ (k - 24) ∧
      0 ≤ |q| - |w.val| ∧ |q| - |w.val| < 2 ^ (k - 24)

/-- 40_codec.md section 1, corner cases of ENCODE: `v` and `-v` differ only in bit 7 of `mantissa_high`, and both raise
or neither does. -/
def Obligations.EncodeNegationFlipsSignBit : Prop :=
  ∀ (s s' t : State) (q : ℚ), q ≠ 0 → s = t.presentValue (.finite q) → s' = t.presentValue (.finite (-q)) →
    (∀ w : Wire, exec .encode s = .next (s.deliver (.enc (.ok w))) →
      exec .encode s' =
        .next (s'.deliver (.enc (.ok ⟨w.mantissaLow, w.mantissaMid, w.mantissaHigh ^^^ 0x80, w.exponent⟩)))) ∧
    (exec .encode s = .next (s.deliver (.enc (.error .encExp))) →
      exec .encode s' = .next (s'.deliver (.enc (.error .encExp))))

/-! ### DECODE -/

/-- 40_codec.md R66: DECODE completes on every record: 0 when the exponent byte is 0, whatever the other bytes hold;
otherwise the signed mantissa scaled by the exponent, which is never 0. -/
def Obligations.DecodeDeliversValue : Prop :=
  ∀ s : State,
    (s.decIn.exponent = 0 → exec .decode s = .next (s.deliver (.value (.finite 0)))) ∧
    (s.decIn.exponent ≠ 0 → ∃ r : ℚ, exec .decode s = .next (s.deliver (.value (.finite r))) ∧ r ≠ 0 ∧
      r = (if s.decIn.mantissaHigh.getLsbD 7 then -1 else 1) *
        ((2 ^ 23 + (s.decIn.mantissaHigh &&& 0x7F).toNat * 65536 + s.decIn.mantissaMid.toNat * 256 +
          s.decIn.mantissaLow.toNat : ℕ) : ℚ) * 2 ^ ((s.decIn.exponent.toNat : ℤ) - 152))

/-- 30_encoding.md sections 2 and 3 (the range is marked derived there): DECODE computes `val` of R47, and a record with
non-zero exponent byte decodes to a magnitude from `2^-128` to `2^127 - 2^103`. -/
def Obligations.DecodeIsValAndItsRange : Prop :=
  ∀ s : State, exec .decode s = .next (s.deliver (.value (.finite s.decIn.val))) ∧
    (s.decIn.exponent ≠ 0 → 2 ^ (-128 : ℤ) ≤ |s.decIn.val| ∧ |s.decIn.val| ≤ 2 ^ 127 - 2 ^ 103)

/-- 40_codec.md section 2, 30_encoding.md section 3 (marked derived): two records decode to one value only if they are
the same record or both stand for zero. -/
def Obligations.DecodeInjectiveOffZero : Prop :=
  ∀ s s' t t' : State, exec .decode s = .next t → exec .decode s' = .next t' → t.delivered = t'.delivered →
    s.decIn = s'.decIn ∨ (s.decIn.exponent = 0 ∧ s'.decIn.exponent = 0)

/-- 40_codec.md section 3 (marked derived): decode any record, present the delivered value to the encoder, encode: the
record comes back, or the canonical zero if the exponent byte was 0. Nothing raises. -/
def Obligations.EncodeAfterDecodeRestoresRecord : Prop :=
  ∀ s : State, ∃ v : Native, exec .decode s = .next (s.deliver (.value v)) ∧
    ∀ t : State, t.encValue = v →
      exec .encode t = .next (t.deliver (.enc (.ok (if s.decIn.exponent = 0 then Wire.zero else s.decIn))))

/-- 40_codec.md section 3 (the exact condition is marked derived): encode a rational, present the record to the decoder,
decode: the value comes back exactly when it is 0, or in range with at most 24 significant bits. -/
def Obligations.DecodeAfterEncodeExactly : Prop :=
  ∀ (s : State) (q : ℚ), s.encValue.toQ = some q →
    ((∃ w : Wire, exec .encode s = .next (s.deliver (.enc (.ok w))) ∧
        exec .decode ((s.deliver (.enc (.ok w))).presentRecord w) =
          .next (((s.deliver (.enc (.ok w))).presentRecord w).deliver (.value (.finite q)))) ↔
      q = 0 ∨ (2 ^ (-128 : ℤ) ≤ |q| ∧ |q| < 2 ^ (127 : ℤ) ∧
        ∀ k : ℤ, BinaryScale q k → ∃ n : ℤ, |q| * 2 ^ (24 - k) = n))

/-! ### SHR1 and SHR -/

/-- 41_shifter.md R74: SHR1 completes on every sequence; each byte is shifted right by one and takes the low bit of the
byte before it at the top, the first byte a 0; the whole is one right shift of the big-endian integer. -/
def Obligations.Shr1ShiftsThroughBytes : Prop :=
  ∀ s : State, ∃ d : ByteSeq, exec .shr1 s = .next (s.deliver (.dout d)) ∧ d.length = s.shDin.length ∧
    be d = be s.shDin / 2 ∧
    ∀ i, i < s.shDin.length → byteAt d i =
      (byteAt s.shDin i >>> 1) ||| (if i = 0 then (0 : Byte) else (byteAt s.shDin (i - 1) &&& 1) <<< 7)

/-- 41_shifter.md section 1 (marked derived): SHR1 is `bytes_N(be(s) >> 1)`. -/
def Obligations.Shr1MatchesClosedForm : Prop :=
  ∀ s : State, exec .shr1 s = .next (s.deliver (.dout (bytesN s.shDin.length (be s.shDin >>> 1))))

/-- 41_shifter.md R78: SHR applies SHR1 exactly `positions` times; 0 positions is the identity; at or past the total bit
width the result is all zero. -/
def Obligations.ShrAppliesShr1PositionsTimes : Prop :=
  ∀ s : State,
    exec .shr s = .next (s.deliver (.dout (shr1^[s.shPositions] s.shDin))) ∧
    (s.shPositions = 0 → exec .shr s = .next (s.deliver (.dout s.shDin))) ∧
    (8 * s.shDin.length ≤ s.shPositions → exec .shr s = .next (s.deliver (.dout (List.replicate s.shDin.length 0))))

/-- 41_shifter.md section 2 (marked derived): SHR is `bytes_N(be(s) >> p)`; the loop of single shifts is a barrel
shifter. -/
def Obligations.ShrMatchesClosedForm : Prop :=
  ∀ s : State, exec .shr s = .next (s.deliver (.dout (bytesN s.shDin.length (be s.shDin >>> s.shPositions))))

/-- 41_shifter.md section 2 (marked derived): shifts compose, one position is SHR1, and a multiple of 8 moves whole
bytes. -/
def Obligations.ShiftsCompose : Prop :=
  ∀ s : ByteSeq, (∀ p q, shr (shr s p) q = shr s (p + q)) ∧ shr s 1 = shr1 s ∧
    ∀ i j, i < s.length → byteAt (shr s (8 * j)) i = if j ≤ i then byteAt s (i - j) else 0

/-- 41_shifter.md section 2 (marked derived): SHR gives all zeros exactly when the sequence's integer is below
`2^positions`; four bytes shifted by 31 keep the top bit. -/
def Obligations.ShrZeroExactlyWhenShiftedOut : Prop :=
  (∀ s : State, ∃ d : ByteSeq, exec .shr s = .next (s.deliver (.dout d)) ∧
    (d = List.replicate s.shDin.length 0 ↔ be s.shDin < 2 ^ s.shPositions)) ∧
  (∀ (s : State) (b0 b1 b2 b3 : Byte), s.shDin = [b0, b1, b2, b3] → s.shPositions = 31 →
    exec .shr s = .next (s.deliver (.dout [0, 0, 0, b0 >>> 7])))

/-! ### ADD -/

/-- 42_adder.md R84: if `b`'s exponent byte is 0 the result is `a`, bit for bit, whatever else; otherwise, if `a`'s is 0,
the result is `b`. These exits never raise. -/
def Obligations.AddPassesOverZero : Prop :=
  ∀ s : State,
    (s.addB.exponent = 0 → exec .add s = .next (s.deliver (.sum (.ok s.addA)))) ∧
    (s.addB.exponent ≠ 0 → s.addA.exponent = 0 → exec .add s = .next (s.deliver (.sum (.ok s.addB))))

/-- 42_adder.md R85: `smaller` is `b` exactly when `a`'s exponent byte is strictly greater; `exp_diff` is the difference
of the exponent bytes, never negative, 0 to 254 for two non-zero exponent bytes. Signs and mantissas play no part. -/
def Obligations.AddOrdersByExponentByte : Prop :=
  ∀ a b : Work,
    (b.exponent.toNat < a.exponent.toNat → smallerOf a b = b ∧ higherOf a b = a) ∧
    (a.exponent.toNat ≤ b.exponent.toNat → smallerOf a b = a ∧ higherOf a b = b) ∧
    ((expDiffOf a b : ℕ) : ℤ) = ((higherOf a b).exponent.toNat : ℤ) - ((smallerOf a b).exponent.toNat : ℤ) ∧
    (a.exponent ≠ 0 → b.exponent ≠ 0 → expDiffOf a b ≤ 254)

/-- 41_shifter.md section 2: both uses the adder makes of its shifter are within the block it contains, 4 bytes and 8-bit
positions. The first shifts `smaller`'s buffer by `exp_diff` into the byte-wise sum; the second, when `carry1` is 1,
shifts the buffer of that sum by 1, and the result's bytes are read off it. -/
def Obligations.AdderStaysWithinItsShifter : Prop :=
  Config.adderShifter.wf = true ∧
  ∀ a b : Work,
    Config.adderShifter.accepts (alignBuffer (smallerOf a b)) (expDiffOf a b) = true ∧
    Config.adderShifter.accepts (renormBuffer (sumsOf a b)) 1 = true ∧
    (a.exponent ≠ 0 → b.exponent ≠ 0 →
      fpAdd a b = assembleSum (higherOf a b).exponent
        (sumBytes (higherOf a b) (shr (alignBuffer (smallerOf a b)) (expDiffOf a b))) ∧
      (carry1Of a b = 1 → (higherOf a b).exponent ≠ 255 →
        ∃ k : Work, fpAdd a b = .ok k ∧
          [k.mantissaHigh, k.mantissaMid, k.mantissaLow] = (shr (renormBuffer (sumsOf a b)) 1).take 3))

/-- 42_adder.md section 4 (marked derived): for operands with non-zero exponent bytes ADD completes, and the byte-wise
ripple with guard byte, mask and renormalising shift is the closed form on integers, the error included. -/
def Obligations.AddMatchesClosedForm : Prop :=
  ∀ s : State, s.addA.exponent ≠ 0 → s.addB.exponent ≠ 0 →
    2 ^ 23 ≤ alignedSum s.addA s.addB ∧ alignedSum s.addA s.addB ≤ 2 ^ 25 - 2 ∧
    exec .add s = .next (s.deliver (.sum (closedSum s.addA s.addB)))

/-- 42_adder.md section 4, cases 1 and 2 (marked derived): below `3 * 2^23` the result is what ENCODE gives for the sum of
the magnitudes, never below the higher operand's magnitude, and where the exponent would be 256 both raise; `S` is that
sum in units of `higher`'s last bit. -/
def Obligations.AddIsEncodedMagnitudeSum : Prop :=
  ∀ s : State, s.addA.exponent ≠ 0 → s.addB.exponent ≠ 0 →
    (alignedSum s.addA s.addB : ℤ) = ⌊magnitudeSum s.addA s.addB / lastBitWeight s.addA s.addB⌋ ∧
    (alignedSum s.addA s.addB < 3 * 2 ^ 23 →
      if (higherOf s.addA s.addB).exponent.toNat + carry1Of s.addA s.addB = 256 then
        exec .add s = .next (s.deliver (.sum (.error .addExp))) ∧
        fpEncode (magnitudeSum s.addA s.addB) = .error .encExp
      else
        ∃ k : Work, exec .add s = .next (s.deliver (.sum (.ok k))) ∧
          fpEncode (magnitudeSum s.addA s.addB) = .ok k.rev ∧ |(higherOf s.addA s.addB).val| ≤ k.val)

/-- 42_adder.md section 4, case 3 (marked derived): from `3 * 2^23` on, the result is too small by
`2^(he - 129)`. -/
def Obligations.AddLosesQuarterInCaseThree : Prop :=
  ∀ s : State, s.addA.exponent ≠ 0 → s.addB.exponent ≠ 0 → 3 * 2 ^ 23 ≤ alignedSum s.addA s.addB →
    (higherOf s.addA s.addB).exponent.toNat ≤ 254 →
    ∃ k : Work, exec .add s = .next (s.deliver (.sum (.ok k))) ∧
      k.val = ((alignedSum s.addA s.addB / 2 : ℕ) : ℚ) * (2 * lastBitWeight s.addA s.addB) -
        2 ^ (((higherOf s.addA s.addB).exponent.toNat : ℤ) - 129)

/-- 42_adder.md section 3 (marked derived): the sign bits of operands with non-zero exponent bytes are ignored. -/
def Obligations.AddIgnoresSigns : Prop :=
  ∀ (s t u : State) (a b : Work), a.exponent ≠ 0 → b.exponent ≠ 0 →
    exec .add (s.presentOperands a b) = .next t →
    exec .add (s.presentOperands (clearSign a) (clearSign b)) = .next u → t.delivered = u.delivered

/-- 42_adder.md sections 3 and 4 (marked derived): a sum of two operands with non-zero exponent bytes has sign bit 0 and
the exponent byte of `higher` or one more, never 0; it decodes to a positive number. -/
def Obligations.AddResultShape : Prop :=
  ∀ (s t : State) (k : Work), s.addA.exponent ≠ 0 → s.addB.exponent ≠ 0 → exec .add s = .next t →
    t.delivered = .sum (.ok k) →
    signBit k.mantissaHigh = 0 ∧ k.exponent ≠ 0 ∧ 0 < k.val ∧
    (k.exponent.toNat = (higherOf s.addA s.addB).exponent.toNat ∨
      k.exponent.toNat = (higherOf s.addA s.addB).exponent.toNat + 1)

/-- 42_adder.md section 4 (marked derived): when the exponents are 24 or more apart the result is `higher` with its sign
bit cleared. -/
def Obligations.AddFarApartKeepsHigher : Prop :=
  ∀ s : State, s.addA.exponent ≠ 0 → s.addB.exponent ≠ 0 → 24 ≤ expDiffOf s.addA s.addB →
    exec .add s = .next (s.deliver (.sum (.ok (clearSign (higherOf s.addA s.addB)))))

/-- 42_adder.md R96 and 60_exceptions.md R103: ADD raises exactly when both exponent bytes are non-zero, `higher[0]` is
255 and `carry1` is 1; the exponent never wraps and never saturates; only ADD_EXP is raised, and only by ADD. -/
def Obligations.AddRaisesExactlyPast255 : Prop :=
  (∀ s : State,
    (s.addRangeErr = 1 ↔ s.addA.exponent ≠ 0 ∧ s.addB.exponent ≠ 0 ∧
      (higherOf s.addA s.addB).exponent.toNat = 255 ∧ carry1Of s.addA s.addB = 1) ∧
    (s.addRangeErr = 1 → exec .add s = .next (s.deliver (.sum (.error .addExp)))) ∧
    (s.addRangeErr ≠ 1 → ∃ k : Work, exec .add s = .next (s.deliver (.sum (.ok k))) ∧
      (s.addA.exponent ≠ 0 → s.addB.exponent ≠ 0 →
        k.exponent.toNat = (higherOf s.addA s.addB).exponent.toNat + carry1Of s.addA s.addB))) ∧
  (∀ (i : Instr) (s t : State), exec i s = .next t → t.delivered = .sum (.error .addExp) → i = .add) ∧
  (∀ s t : State, exec .encode s = .next t → t.delivered ≠ .enc (.error .addExp))

/-- 42_adder.md section 4 (the extension past positive operands is marked derived): ADD commutes bit for bit, errors
included, whenever at least one exponent byte is non-zero; when both are 0 each order returns its first operand. -/
def Obligations.AddCommutesUnlessBothZero : Prop :=
  ∀ (s t u : State) (a b : Work), exec .add (s.presentOperands a b) = .next t →
    exec .add (s.presentOperands b a) = .next u →
    (a.exponent ≠ 0 ∨ b.exponent ≠ 0 → t.delivered = u.delivered) ∧
    (a.exponent = 0 → b.exponent = 0 → t.delivered = .sum (.ok a) ∧ u.delivered = .sum (.ok b))

/-- 42_adder.md R99: ADDW is the adder with the byte lanes of its three ports crossed,
`rev(ADD(rev(x), rev(y)))`, raising exactly when the inner ADD does. Wire bytes given to ADD unreversed are no detected
error: `mantissa_low` is read as the exponent. -/
def Obligations.AddWireIsAddWithCrossedLanes : Prop :=
  ∀ (s : State) (x y : Wire), ∃ t : State, exec .add (s.presentWireOperands x y) = .next t ∧
    t.delivered = .sum (fpAdd x.rev y.rev) ∧ t.sumWire = addWire x y ∧
    (∀ e, addWire x y = .error e ↔ fpAdd x.rev y.rev = .error e) ∧
    (∀ k, fpAdd x.rev y.rev = .ok k → addWire x y = .ok k.rev) ∧
    (∃ u : State, exec .add (s.presentOperands (Work.ofUnreversed x) (Work.ofUnreversed y)) = .next u) ∧
    (Work.ofUnreversed x).exponent = x.mantissaLow

/-- 70_reset_and_hazards.md section 2: any wire bytes given to ADD unreversed do not fault; `mantissa_low` is read as the
exponent byte of each operand and the other bytes as they stand, so an operand with `mantissa_low` 0 is taken for zero. -/
def Obligations.AddReadsUnreversedBytesAsTheyStand : Prop :=
  ∀ (s s' : State) (x y : Wire) (a b : Work),
    a = ⟨x.mantissaLow, x.mantissaMid, x.mantissaHigh, x.exponent⟩ →
    b = ⟨y.mantissaLow, y.mantissaMid, y.mantissaHigh, y.exponent⟩ →
    s' = s.presentOperands (Work.ofUnreversed x) (Work.ofUnreversed y) →
    exec .add s' = .next (s'.deliver (.sum (fpAdd a b))) ∧
    (x.mantissaLow ≠ 0 → y.mantissaLow ≠ 0 → fpAdd a b = closedSum a b) ∧
    (y.mantissaLow = 0 → fpAdd a b = .ok a) ∧
    (y.mantissaLow ≠ 0 → x.mantissaLow = 0 → fpAdd a b = .ok b)

/-! ### A native format -/

/-- 00_scope.md section 4, 40_codec.md section 1: the native type is a parameter. For any native type ENCODE is the
operation on rationals after `toQ`, with no result and no error where `toQ` is undefined; for one that holds what DECODE
can deliver, encoding what was decoded gives the record back, or the canonical zero for exponent byte 0. -/
def Obligations.AnyNativeFormatOnTheCodec : Prop :=
  ∀ (ν : Type) (F : NativeFormat ν),
    (∀ (p : Inputs ν) (q : ℚ), F.toQ p.encValue = some q → invoke F .encode p = some (.enc (fpEncode q))) ∧
    (∀ p : Inputs ν, F.toQ p.encValue = none → invoke F .encode p = none) ∧
    (∀ p : Inputs ν, invoke F .decode p = some (.value (F.ofQ p.decIn.val))) ∧
    (F.HoldsRecordValues → ∀ p : Inputs ν,
      invoke F .encode { p with encValue := p.valuePort F } =
        some (.enc (.ok (if p.decIn.exponent = 0 then Wire.zero else p.decIn))))

/-- 92_eei_decisions.md D4, 40_codec.md section 2, 93_implementation_defined.md G2: the spec's default, the rationals; the
machine's type (log entry 5); and 64-bit IEEE 754 (PRESUMED, log entry 18) each hold what DECODE can deliver. -/
def Obligations.NativeFormatsHoldRecordValues : Prop :=
  NativeFormat.rationals.HoldsRecordValues ∧ Native.format.HoldsRecordValues ∧ NativeFormat.binary64.HoldsRecordValues

/-- 93_implementation_defined.md G2, a passage the spec marks as general knowledge (log entry 18): with a 64-bit IEEE 754
value on the encoder, exponent field 2047 is refused, both zeros give the canonical zero, every other value with exponent
field 0 raises; and everything DECODE delivers is the value of some 64-bit pattern. -/
def Obligations.Binary64ValuesOnTheCodec : Prop :=
  (∀ (s t : State) (bits : BitVec 64), t = s.presentValue (Native.ofBinary64 bits) →
    (bits.extractLsb' 52 11 = 2047 → exec .encode t = .refused (.valueNotFinite (Native.ofBinary64 bits))) ∧
    (bits.extractLsb' 0 63 = 0 → exec .encode t = .next (t.deliver (.enc (.ok Wire.zero)))) ∧
    (bits.extractLsb' 52 11 = 0 → bits.extractLsb' 0 52 ≠ 0 →
      exec .encode t = .next (t.deliver (.enc (.error .encExp))))) ∧
  (∀ s : State, ∃ (bits : BitVec 64) (v : Native), exec .decode s = .next (s.deliver (.value v)) ∧
    (Native.ofBinary64 bits).toQ = v.toQ)
end

