-- ==== Sys2Proof/Laws/Record.lean ====
section
/-! SUPPORT. The fields of a record as numbers (30_encoding.md R43 to R46). -/

namespace Sys2Proof.Machine

theorem restoreImplied_toNat (b : Byte) : (restoreImplied b).toNat = 128 + b.toNat % 128 := by
  revert b; decide +kernel

theorem signBit_toNat (b : Byte) : (signBit b).toNat = b.toNat / 128 := by
  revert b; decide +kernel

theorem signBit_eq_zero_iff (b : Byte) : signBit b = 0 ↔ b.toNat < 128 := by
  revert b; decide +kernel

theorem packSign_toNat (b : Byte) (sign : BitVec 1) : (packSign b sign).toNat = b.toNat % 128 + 128 * sign.toNat := by
  revert b sign; decide +kernel

@[simp] theorem signBit_packSign (b : Byte) (sign : BitVec 1) : signBit (packSign b sign) = sign := by
  revert b sign; decide +kernel

/-- Dropping and restoring the implied bit changes nothing on a normalised high byte. -/
theorem restoreImplied_packSign (b : Byte) (sign : BitVec 1) : restoreImplied (packSign b sign) = restoreImplied b := by
  revert b sign; decide +kernel

/-- A high byte is its magnitude bits with its own sign put in place. -/
theorem packSign_restoreImplied (b : Byte) : packSign (restoreImplied b) (signBit b) = b := by
  revert b; decide +kernel

/-- The reconstructed mantissa as a sum of its stored bits. -/
theorem mantissa_eq (mh mm ml : Byte) :
    mantissa mh mm ml = (128 + mh.toNat % 128) * 65536 + mm.toNat * 256 + ml.toNat := by
  rw [mantissa, assemble, restoreImplied_toNat]

@[simp] theorem wire_rev_rev (w : Wire) : w.rev.rev = w := rfl

@[simp] theorem work_rev_rev (k : Work) : k.rev.rev = k := rfl

@[simp] theorem rev_mantissa (w : Wire) : w.rev.mantissa = w.mantissa := rfl

theorem wire_isZero_iff (w : Wire) : w.isZero = true ↔ w.exponent = 0 := by
  simp [Wire.isZero]

theorem work_isZero_iff (k : Work) : k.isZero = true ↔ k.exponent = 0 := by
  simp [Work.isZero]

end Sys2Proof.Machine
end

