-- ==== Sys2Proof/Laws/Seq.lean ====
section
/-! SUPPORT. Byte sequences: `be` and `bytesN` are inverse, and a sequence is its length and its integer. -/

namespace Sys2Proof.Machine

theorem be_nil : be [] = 0 := rfl

theorem be_cons (b : Byte) (rest : ByteSeq) : be (b :: rest) = b.toNat * 256 ^ rest.length + be rest := rfl

theorem be_lt (s : ByteSeq) : be s < 256 ^ s.length := by
  induction s with
  | nil => simp [be]
  | cons b rest ih =>
    have hb : b.toNat ≤ 255 := by have := b.isLt; omega
    have hm : b.toNat * 256 ^ rest.length ≤ 255 * 256 ^ rest.length := Nat.mul_le_mul_right _ hb
    rw [be_cons, List.length_cons, pow_succ]
    omega

@[simp] theorem bytesN_length (n v : Nat) : (bytesN n v).length = n := by
  induction n generalizing v with
  | zero => rfl
  | succ n ih => simp [bytesN, ih]

theorem bytesN_be (s : ByteSeq) : bytesN s.length (be s) = s := by
  induction s with
  | nil => rfl
  | cons b rest ih =>
    have hr := be_lt rest
    have hpos : 0 < 256 ^ rest.length := by positivity
    have hdiv : (b.toNat * 256 ^ rest.length + be rest) / 256 ^ rest.length = b.toNat := by
      rw [Nat.mul_comm, Nat.mul_add_div hpos, Nat.div_eq_of_lt hr, Nat.add_zero]
    have hmod : (b.toNat * 256 ^ rest.length + be rest) % 256 ^ rest.length = be rest := by
      rw [Nat.mul_comm, Nat.mul_add_mod, Nat.mod_eq_of_lt hr]
    simp [bytesN, be_cons, hdiv, hmod, ih]

theorem be_bytesN (n v : Nat) (h : v < 256 ^ n) : be (bytesN n v) = v := by
  induction n generalizing v with
  | zero => simp at h; simp [bytesN, be, h]
  | succ n ih =>
    have hpos : 0 < 256 ^ n := by positivity
    have hq : v / 256 ^ n < 256 := by
      rw [Nat.div_lt_iff_lt_mul hpos]; rw [pow_succ] at h; omega
    have hr : v % 256 ^ n < 256 ^ n := Nat.mod_lt _ hpos
    rw [bytesN, be_cons, bytesN_length, ih _ hr, BitVec.toNat_ofNat, Nat.mod_eq_of_lt (by simpa using hq)]
    exact Nat.div_add_mod' v _

/-- Two sequences of one length with one integer are equal. -/
theorem eq_of_be_eq {s t : ByteSeq} (hl : s.length = t.length) (h : be s = be t) : s = t := by
  rw [← bytesN_be s, ← bytesN_be t, hl, h]

theorem be_replicate_zero (n : Nat) : be (List.replicate n 0) = 0 := by
  induction n with
  | zero => rfl
  | succ n ih => rw [List.replicate_succ, be_cons, ih]; simp

/-- A byte of a sequence is a slice of its integer. -/
theorem byteAt_eq_be_slice (s : ByteSeq) (i : Nat) (h : i < s.length) :
    (byteAt s i).toNat = be s / 256 ^ (s.length - 1 - i) % 256 := by
  induction s generalizing i with
  | nil => simp at h
  | cons b rest ih =>
    have hr := be_lt rest
    have hpos : 0 < 256 ^ rest.length := by positivity
    cases i with
    | zero =>
      have hb : b.toNat < 256 := b.isLt
      simp only [byteAt, List.getD_cons_zero, be_cons, List.length_cons]
      rw [show rest.length + 1 - 1 - 0 = rest.length by omega, Nat.mul_comm, Nat.mul_add_div hpos,
        Nat.div_eq_of_lt hr, Nat.add_zero, Nat.mod_eq_of_lt hb]
    | succ i =>
      have hi : i < rest.length := by simpa using h
      have hp : 256 ^ rest.length = 256 ^ (rest.length - 1 - i) * (256 * 256 ^ i) := by
        rw [← pow_succ', ← pow_add]; congr 1; omega
      have hpos' : 0 < 256 ^ (rest.length - 1 - i) := by positivity
      have := ih i hi
      simp only [byteAt, List.getD_cons_succ, be_cons, List.length_cons] at this ⊢
      rw [this, show rest.length + 1 - 1 - (i + 1) = rest.length - 1 - i by omega, hp,
        show b.toNat * (256 ^ (rest.length - 1 - i) * (256 * 256 ^ i)) =
          256 ^ (rest.length - 1 - i) * (256 * (b.toNat * 256 ^ i)) by ring,
        Nat.mul_add_div hpos', Nat.mul_add_mod]

end Sys2Proof.Machine
end

