-- ==== Sys2Proof/Laws/Shifter.lean ====
section
/-! SUPPORT. What the shifter does, once: the length stays and the integer is divided by a power of two. -/

namespace Sys2Proof.Machine

@[simp] theorem shr1Loop_length (cin : BitVec 1) (s : ByteSeq) : (shr1Loop cin s).length = s.length := by
  induction s generalizing cin with
  | nil => rfl
  | cons b rest ih => simp [shr1Loop, ih]

@[simp] theorem shr1_length (s : ByteSeq) : (shr1 s).length = s.length := shr1Loop_length 0 s

@[simp] theorem shr_length (s : ByteSeq) (n : Nat) : (shr s n).length = s.length := by
  induction n generalizing s with
  | zero => rfl
  | succ n ih => simp [shr, ih]

/-- One byte of the loop: the byte halved, the incoming carry at weight 128. -/
theorem shifted_byte_toNat (b : Byte) (cin : BitVec 1) :
    ((b >>> 1) ||| (cin.setWidth 8 <<< 7)).toNat = 128 * cin.toNat + b.toNat / 2 := by
  revert b cin; decide +kernel

theorem shiftedOut_toNat (b : Byte) : (shiftedOut b).toNat = b.toNat % 2 := by
  revert b; decide +kernel

/-- The ripple of carries is one shift of the integer with the incoming carry on top. -/
theorem be_shr1Loop (cin : BitVec 1) (s : ByteSeq) :
    be (shr1Loop cin s) = (cin.toNat * 256 ^ s.length + be s) / 2 := by
  induction s generalizing cin with
  | nil =>
    have : cin.toNat < 2 := cin.isLt
    simp [shr1Loop, be]; omega
  | cons b rest ih =>
    rw [shr1Loop, be_cons, be_cons, ih, shr1Loop_length, shifted_byte_toNat, shiftedOut_toNat, List.length_cons,
      pow_succ]
    generalize 256 ^ rest.length = p
    generalize be rest = r
    have hb := Nat.div_add_mod b.toNat 2
    generalize b.toNat / 2 = h at *
    generalize b.toNat % 2 = l at *
    rw [← hb]
    have : cin.toNat * (p * 256) + ((2 * h + l) * p + r) = 2 * ((128 * cin.toNat + h) * p) + (l * p + r) := by ring
    rw [this, Nat.mul_add_div (by norm_num)]

theorem be_shr1 (s : ByteSeq) : be (shr1 s) = be s / 2 := by
  simp [shr1, be_shr1Loop]

theorem be_shr (s : ByteSeq) (n : Nat) : be (shr s n) = be s / 2 ^ n := by
  induction n generalizing s with
  | zero => simp [shr]
  | succ n ih => rw [shr, ih, be_shr1, Nat.div_div_eq_div_mul, pow_succ']

end Sys2Proof.Machine
end

