-- ==== Sys2Proof/Laws/Adder.lean ====
section
/-! SUPPORT. What the parts of the adder do, as numbers. -/

namespace Sys2Proof.Machine

/-- The two orders of the operands (42_adder.md R85). -/
theorem orderByExponent_cases (a b : Work) :
    (b.exponent.toNat < a.exponent.toNat ∧ orderByExponent a b = (b, a)) ∨
    (a.exponent.toNat ≤ b.exponent.toNat ∧ orderByExponent a b = (a, b)) := by
  by_cases h : b.exponent < a.exponent
  · exact .inl ⟨BitVec.lt_def.mp h, by simp [orderByExponent, h]⟩
  · exact .inr ⟨by rw [BitVec.lt_def] at h; omega, by simp [orderByExponent, h]⟩

theorem carryOut_eq (n : Nat) (h : n < 512) : carryOut n = n / 256 := by
  unfold carryOut; split <;> omega

/-- The alignment buffer is the reconstructed mantissa and a zero guard byte (42_adder.md R86). -/
theorem be_alignBuffer (k : Work) : be (alignBuffer k) = k.mantissa * 256 := by
  simp [be, alignBuffer, Work.mantissa, mantissa, assemble]; ring

/-- The three bytes of an aligned buffer that the sum reads hold the shifted mantissa (42_adder.md R87). -/
theorem assemble_shifted (k : Work) (d : Nat) :
    assemble (byteAt (shr (alignBuffer k) d) 0) (byteAt (shr (alignBuffer k) d) 1) (byteAt (shr (alignBuffer k) d) 2) =
      k.mantissa / 2 ^ d := by
  have hl : (shr (alignBuffer k) d).length = 4 := by simp [alignBuffer]
  have hb : be (shr (alignBuffer k) d) = k.mantissa * 256 / 2 ^ d := by rw [be_shr, be_alignBuffer]
  obtain ⟨b0, b1, b2, b3, hs⟩ : ∃ b0 b1 b2 b3, shr (alignBuffer k) d = [b0, b1, b2, b3] := by
    match h : shr (alignBuffer k) d, hl with
    | [b0, b1, b2, b3], _ => exact ⟨b0, b1, b2, b3, rfl⟩
  have h3 : b3.toNat < 256 := b3.isLt
  have key : k.mantissa / 2 ^ d = k.mantissa * 256 / 2 ^ d / 256 := by
    rw [Nat.div_div_eq_div_mul, Nat.mul_comm (2 ^ d), ← Nat.div_div_eq_div_mul, Nat.mul_div_cancel _ (by norm_num)]
  rw [key, ← hb, hs]
  simp [be, byteAt, assemble]; omega

/-- The byte-wise ripple is one addition: `byte1_sum` keeps the carry (42_adder.md R88). -/
theorem sumBytes_spec (higher : Work) (aligned : ByteSeq) :
    (sumBytes higher aligned).byte1Sum * 65536 + (sumBytes higher aligned).byte2.toNat * 256 +
        (sumBytes higher aligned).byte3.toNat =
      higher.mantissa + assemble (byteAt aligned 0) (byteAt aligned 1) (byteAt aligned 2) ∧
    128 ≤ (sumBytes higher aligned).byte1Sum ∧ (sumBytes higher aligned).byte1Sum < 512 := by
  have h1 : (restoreImplied higher.mantissaHigh).toNat < 256 := (restoreImplied higher.mantissaHigh).isLt
  have h1' := restoreImplied_toNat higher.mantissaHigh
  have h2 := higher.mantissaMid.isLt
  have h3 := higher.mantissaLow.isLt
  have a0 := (byteAt aligned 0).isLt
  have a1 := (byteAt aligned 1).isLt
  have a2 := (byteAt aligned 2).isLt
  have hand : ∀ n : Nat, n &&& 255 = n % 256 := fun n => Nat.and_two_pow_sub_one_eq_mod n 8
  simp only [sumBytes, Work.mantissa, mantissa, assemble, hand, BitVec.toNat_ofNat, carryOut]
  refine ⟨?_, ?_, ?_⟩ <;> split <;> split <;> omega

/-- Result assembly, without and with carry (42_adder.md R89, R96). -/
theorem assembleSum_cases (he : Byte) (sums : SumBytes) :
    (sums.byte1Sum ≤ 255 ∧
      assembleSum he sums = .ok ⟨he, BitVec.ofNat 8 (sums.byte1Sum &&& 0x7F), sums.byte2, sums.byte3⟩) ∨
    (255 < sums.byte1Sum ∧ he.toNat = 255 ∧ assembleSum he sums = .error .addExp) ∨
    (255 < sums.byte1Sum ∧ he.toNat < 255 ∧ assembleSum he sums =
      .ok ⟨BitVec.ofNat 8 (he.toNat + 1), byteAt (shr1 (renormBuffer sums)) 0,
        byteAt (shr1 (renormBuffer sums)) 1,
        byteAt (shr1 (renormBuffer sums)) 2⟩) := by
  have hhe : he.toNat < 256 := he.isLt
  by_cases h : sums.byte1Sum > 255
  · right
    by_cases h' : he.toNat = 255
    · exact .inl ⟨h, h', by simp [assembleSum, carryOut, h, h', raise]⟩
    · exact .inr ⟨h, by omega, by
        simp only [assembleSum, carryOut, h, if_true]; rw [if_neg (by omega)]⟩
  · exact .inl ⟨by omega, by
      simp [assembleSum, carryOut, h, byteAt, renormBuffer, show ¬ 255 < he.toNat by omega]⟩

/-- ADD's three ways: `b` zero, `a` zero, the sum path (42_adder.md R83, R84). -/
theorem fpAdd_cases (a b : Work) :
    (b.exponent = 0 ∧ fpAdd a b = .ok a) ∨ (b.exponent ≠ 0 ∧ a.exponent = 0 ∧ fpAdd a b = .ok b) ∨
    (b.exponent ≠ 0 ∧ a.exponent ≠ 0 ∧ fpAdd a b = addNonzero a b) := by
  have zero : ∀ k : Work, k.exponent = 0 → k.isZero = true := fun k => (work_isZero_iff k).mpr
  have nonzero : ∀ k : Work, k.exponent ≠ 0 → k.isZero = false := fun k h => by
    rw [← Bool.not_eq_true, work_isZero_iff]; exact h
  by_cases hb : b.exponent = 0
  · exact .inl ⟨hb, by simp [fpAdd, zero b hb]⟩
  · by_cases ha : a.exponent = 0
    · exact .inr (.inl ⟨hb, ha, by simp [fpAdd, nonzero b hb, zero a ha]⟩)
    · exact .inr (.inr ⟨hb, ha, by simp [fpAdd, nonzero b hb, nonzero a ha]⟩)

end Sys2Proof.Machine
end

