-- ==== Sys2Proof/Laws/Codec.lean ====
section
/-! SUPPORT. What the parts of the codec do: the two normalisation loops, one step of mantissa extraction. -/

namespace Sys2Proof.Machine

/-- The halving loop, given enough iterations: it keeps `m * 2^c`, ends below 1/2, and above 1/4 if it ran. -/
theorem halveLoop_spec (n : Nat) (m : ℚ) (c : ℤ) (hm : m < 2 ^ n / 2) :
    (halveLoop n m c).1 < 1 / 2 ∧ m = (halveLoop n m c).1 * 2 ^ ((halveLoop n m c).2 - c) ∧
      (1 / 2 ≤ m → 1 / 4 ≤ (halveLoop n m c).1) ∧ (m < 1 / 2 → halveLoop n m c = (m, c)) := by
  induction n generalizing m c with
  | zero =>
    have h : m < 1 / 2 := by simpa using hm
    exact ⟨h, by simp [halveLoop], fun h' => absurd h (not_lt.mpr h'), fun _ => rfl⟩
  | succ n ih =>
    by_cases h : 1 / 2 ≤ m
    · obtain ⟨h1, h2, h3, h4⟩ := ih (m / 2) (c + 1) (by rw [pow_succ] at hm; linarith)
      simp only [halveLoop, h, if_true]
      refine ⟨h1, ?_, fun _ => ?_, fun h' => absurd h (not_le.mpr h')⟩
      · have e : (halveLoop n (m / 2) (c + 1)).2 - c = (halveLoop n (m / 2) (c + 1)).2 - (c + 1) + 1 := by ring
        rw [e, zpow_add_one₀ (by norm_num), ← mul_assoc, ← h2]; ring
      · by_cases h' : 1 / 2 ≤ m / 2
        · exact h3 h'
        · rw [h4 (not_le.mp h')]; show 1 / 4 ≤ m / 2; linarith
    · have h' := not_le.mp h
      simp only [halveLoop, h, if_false]
      exact ⟨h', by simp, fun x => x.elim, fun _ => trivial⟩

/-- The doubling loop, given enough iterations: it keeps `m * 2^c` and ends in `[1/2, 1)`. -/
theorem doubleLoop_spec (n : Nat) (m : ℚ) (c : ℤ) (hm : 1 / 2 ≤ m * 2 ^ n) (h1 : m < 1) :
    1 / 2 ≤ (doubleLoop n m c).1 ∧ (doubleLoop n m c).1 < 1 ∧
      m = (doubleLoop n m c).1 * 2 ^ ((doubleLoop n m c).2 - c) := by
  induction n generalizing m c with
  | zero => exact ⟨by simpa [doubleLoop] using hm, h1, by simp [doubleLoop]⟩
  | succ n ih =>
    by_cases h : m < 1 / 2
    · obtain ⟨a, b, e⟩ := ih (m * 2) (c - 1) (by rw [pow_succ] at hm; linarith) (by linarith)
      simp only [doubleLoop, h, if_true]
      refine ⟨a, b, ?_⟩
      have e' : (doubleLoop n (m * 2) (c - 1)).2 - c = (doubleLoop n (m * 2) (c - 1)).2 - (c - 1) - 1 := by ring
      rw [e', zpow_sub_one₀ (by norm_num), ← mul_assoc, ← e]; ring
    · simp only [doubleLoop, h, if_false]
      exact ⟨not_lt.mp h, h1, by simp⟩

/-- A rational is below its numerator's next power of two. -/
theorem abs_lt_two_pow_num (v : ℚ) : |v| < 2 ^ (v.num.natAbs.log2 + 2) / 2 := by
  have hd : (1 : ℚ) ≤ v.den := by exact_mod_cast v.den_pos
  have h1 : |v| ≤ (v.num.natAbs : ℚ) := by
    have : |v| = (v.num.natAbs : ℚ) / v.den := by
      conv_lhs => rw [← Rat.num_div_den v]
      rw [abs_div, Nat.abs_cast, Nat.cast_natAbs, Int.cast_abs]
    rw [this]; exact div_le_self (by positivity) hd
  have h2 : (v.num.natAbs : ℚ) < 2 ^ (v.num.natAbs.log2 + 1) := by exact_mod_cast Nat.lt_log2_self
  rw [pow_succ (2 : ℚ) (v.num.natAbs.log2 + 1)]; linarith

/-- A non-zero rational is above half its denominator's power of two. -/
theorem half_le_abs_mul_two_pow_den (v : ℚ) (hv : v ≠ 0) : 1 ≤ |v| * 2 ^ (v.den.log2 + 1) := by
  have hd : (0 : ℚ) < v.den := by exact_mod_cast v.den_pos
  have h1 : (1 : ℚ) ≤ (v.num.natAbs : ℚ) := by
    exact_mod_cast Nat.one_le_iff_ne_zero.mpr (Int.natAbs_ne_zero.mpr (Rat.num_ne_zero.mpr hv))
  have h2 : (v.den : ℚ) ≤ 2 ^ (v.den.log2 + 1) := by exact_mod_cast (Nat.lt_log2_self).le
  have h3 : |v| = (v.num.natAbs : ℚ) / v.den := by
    conv_lhs => rw [← Rat.num_div_den v]
    rw [abs_div, Nat.abs_cast, Nat.cast_natAbs, Int.cast_abs]
  rw [h3, div_mul_eq_mul_div, le_div_iff₀ hd, one_mul]
  nlinarith

/-- Normalisation of a non-zero value ends in `[1/2, 1)` and keeps the magnitude. -/
theorem normalise_spec (v : ℚ) (hv : v ≠ 0) :
    1 / 2 ≤ (normalise v).1 ∧ (normalise v).1 < 1 ∧ |v| = (normalise v).1 * 2 ^ (normalise v).2 := by
  obtain ⟨a, b, c, d⟩ := halveLoop_spec _ |v| 0 (abs_lt_two_pow_num v)
  have hden := half_le_abs_mul_two_pow_den v hv
  have hfuel : 1 / 2 ≤ (halveLoop (v.num.natAbs.log2 + 2) |v| 0).1 * 2 ^ (v.den.log2 + 1) := by
    by_cases h : 1 / 2 ≤ |v|
    · have h2 : (2 : ℚ) ≤ 2 ^ (v.den.log2 + 1) := by
        rw [pow_succ]; have : (1 : ℚ) ≤ 2 ^ v.den.log2 := one_le_pow₀ (by norm_num)
        linarith
      have := c h; nlinarith
    · rw [d (not_le.mp h)]; show 1 / 2 ≤ |v| * 2 ^ (v.den.log2 + 1); linarith
  obtain ⟨e, f, g⟩ := doubleLoop_spec _ _ (halveLoop (v.num.natAbs.log2 + 2) |v| 0).2 hfuel (by linarith)
  refine ⟨e, f, ?_⟩
  calc |v| = _ := b
    _ = (doubleLoop (v.den.log2 + 1) (halveLoop (v.num.natAbs.log2 + 2) |v| 0).1
          (halveLoop (v.num.natAbs.log2 + 2) |v| 0).2).1 * 2 ^ ((doubleLoop (v.den.log2 + 1)
          (halveLoop (v.num.natAbs.log2 + 2) |v| 0).1 (halveLoop (v.num.natAbs.log2 + 2) |v| 0).2).2 -
          (halveLoop (v.num.natAbs.log2 + 2) |v| 0).2) * 2 ^ ((halveLoop (v.num.natAbs.log2 + 2) |v| 0).2 - 0) := by
        rw [← g]
    _ = (normalise v).1 * 2 ^ (normalise v).2 := by
        rw [mul_assoc, ← zpow_add₀ (by norm_num)]; simp [normalise]

/-- One step of mantissa extraction splits `m * 256` into its integer part, a byte, and a remainder in `[0, 1)`. -/
theorem extractByte_spec (m : ℚ) (h0 : 0 ≤ m) (h1 : m < 1) :
    ((extractByte m).1.toNat : ℤ) = ⌊m * 256⌋ ∧ m * 256 = ((extractByte m).1.toNat : ℚ) + (extractByte m).2 ∧
      0 ≤ (extractByte m).2 ∧ (extractByte m).2 < 1 := by
  have hf : (m * 256).floor = ⌊m * 256⌋ := rfl
  have hlo : 0 ≤ ⌊m * 256⌋ := Int.floor_nonneg.mpr (by linarith)
  have hhi : ⌊m * 256⌋ < 256 := Int.floor_lt.mpr (by push_cast; linarith)
  have hb : ((extractByte m).1.toNat : ℤ) = ⌊m * 256⌋ := by
    simp only [extractByte, hf, BitVec.toNat_ofInt]; omega
  have hq : ((extractByte m).1.toNat : ℚ) = (⌊m * 256⌋ : ℚ) := by exact_mod_cast hb
  have hr : (extractByte m).2 = m * 256 - (⌊m * 256⌋ : ℚ) := rfl
  refine ⟨hb, by rw [hq, hr]; ring, ?_, ?_⟩
  · rw [hr]; have := Int.floor_le (m * 256); linarith
  · rw [hr]; have := Int.lt_floor_add_one (m * 256); linarith

@[simp] theorem fpEncode_zero : fpEncode 0 = .ok Wire.zero := by simp [fpEncode]

@[simp] theorem ofQ_eq_finite (q : ℚ) : Native.ofQ q = .finite q := rfl

@[simp] theorem toQ_finite (q : ℚ) : (Native.finite q).toQ = some q := rfl

theorem encodeNative_of_toQ {ν : Type} (F : NativeFormat ν) (v : ν) (q : ℚ) (h : F.toQ v = some q) :
    encodeNative F v = some (fpEncode q) := by
  simp only [encodeNative, h]

theorem encodeNative_of_none {ν : Type} (F : NativeFormat ν) (v : ν) (h : F.toQ v = none) : encodeNative F v = none := by
  simp only [encodeNative, h]

@[simp] theorem format_toQ (v : Native) : Native.format.toQ v = v.toQ := rfl

@[simp] theorem format_ofQ (q : ℚ) : Native.format.ofQ q = .finite q := rfl

@[simp] theorem decodeNative_format (w : Wire) : decodeNative Native.format w = .finite (fpDecode w) := rfl

theorem toQ_isSome_iff_wf (v : Native) : v.toQ.isSome = true ↔ v.wf = true := by
  cases v <;> simp [Native.toQ, Native.wf]

end Sys2Proof.Machine
end

