-- ==== Sys2Proof/Laws/State.lean ====
section
/-! SUPPORT. One lemma per field and update of State (Machine/Ops.lean), so that no proof unfolds a record update, and
what delivering and presenting do to the output ports (Machine/Ports.lean). -/

namespace Sys2Proof.Machine

variable (s : State)

/-! ### `deliver` -/

@[simp] theorem deliver_op (r : Reply Native) : (s.deliver r).op = s.op := rfl
@[simp] theorem deliver_encValue (r : Reply Native) : (s.deliver r).encValue = s.encValue := rfl
@[simp] theorem deliver_decIn (r : Reply Native) : (s.deliver r).decIn = s.decIn := rfl
@[simp] theorem deliver_shDin (r : Reply Native) : (s.deliver r).shDin = s.shDin := rfl
@[simp] theorem deliver_shPositions (r : Reply Native) : (s.deliver r).shPositions = s.shPositions := rfl
@[simp] theorem deliver_addA (r : Reply Native) : (s.deliver r).addA = s.addA := rfl
@[simp] theorem deliver_addB (r : Reply Native) : (s.deliver r).addB = s.addB := rfl
@[simp] theorem deliver_machine (r : Reply Native) : (s.deliver r).machine = s.machine := rfl
@[simp] theorem deliver_delivered (r : Reply Native) : (s.deliver r).delivered = r := rfl

/-! ### `presentOp` -/

@[simp] theorem presentOp_op (o : BitVec 3) : (s.presentOp o).op = o := rfl
@[simp] theorem presentOp_encValue (o : BitVec 3) : (s.presentOp o).encValue = s.encValue := rfl
@[simp] theorem presentOp_decIn (o : BitVec 3) : (s.presentOp o).decIn = s.decIn := rfl
@[simp] theorem presentOp_shDin (o : BitVec 3) : (s.presentOp o).shDin = s.shDin := rfl
@[simp] theorem presentOp_shPositions (o : BitVec 3) : (s.presentOp o).shPositions = s.shPositions := rfl
@[simp] theorem presentOp_addA (o : BitVec 3) : (s.presentOp o).addA = s.addA := rfl
@[simp] theorem presentOp_addB (o : BitVec 3) : (s.presentOp o).addB = s.addB := rfl
@[simp] theorem presentOp_machine (o : BitVec 3) : (s.presentOp o).machine = s.machine := rfl
@[simp] theorem presentOp_delivered (o : BitVec 3) : (s.presentOp o).delivered = s.delivered := rfl

/-! ### `presentValue` -/

@[simp] theorem presentValue_op (v : Native) : (s.presentValue v).op = s.op := rfl
@[simp] theorem presentValue_encValue (v : Native) : (s.presentValue v).encValue = v := rfl
@[simp] theorem presentValue_decIn (v : Native) : (s.presentValue v).decIn = s.decIn := rfl
@[simp] theorem presentValue_shDin (v : Native) : (s.presentValue v).shDin = s.shDin := rfl
@[simp] theorem presentValue_shPositions (v : Native) : (s.presentValue v).shPositions = s.shPositions := rfl
@[simp] theorem presentValue_addA (v : Native) : (s.presentValue v).addA = s.addA := rfl
@[simp] theorem presentValue_addB (v : Native) : (s.presentValue v).addB = s.addB := rfl
@[simp] theorem presentValue_machine (v : Native) : (s.presentValue v).machine = s.machine := rfl
@[simp] theorem presentValue_delivered (v : Native) : (s.presentValue v).delivered = s.delivered := rfl

/-! ### `presentRecord` -/

@[simp] theorem presentRecord_op (w : Wire) : (s.presentRecord w).op = s.op := rfl
@[simp] theorem presentRecord_encValue (w : Wire) : (s.presentRecord w).encValue = s.encValue := rfl
@[simp] theorem presentRecord_decIn (w : Wire) : (s.presentRecord w).decIn = w := rfl
@[simp] theorem presentRecord_shDin (w : Wire) : (s.presentRecord w).shDin = s.shDin := rfl
@[simp] theorem presentRecord_shPositions (w : Wire) : (s.presentRecord w).shPositions = s.shPositions := rfl
@[simp] theorem presentRecord_addA (w : Wire) : (s.presentRecord w).addA = s.addA := rfl
@[simp] theorem presentRecord_addB (w : Wire) : (s.presentRecord w).addB = s.addB := rfl
@[simp] theorem presentRecord_machine (w : Wire) : (s.presentRecord w).machine = s.machine := rfl
@[simp] theorem presentRecord_delivered (w : Wire) : (s.presentRecord w).delivered = s.delivered := rfl

/-! ### `presentSequence` -/

@[simp] theorem presentSequence_op (din : ByteSeq) (n : Nat) : (s.presentSequence din n).op = s.op := rfl
@[simp] theorem presentSequence_encValue (din : ByteSeq) (n : Nat) : (s.presentSequence din n).encValue = s.encValue := rfl
@[simp] theorem presentSequence_decIn (din : ByteSeq) (n : Nat) : (s.presentSequence din n).decIn = s.decIn := rfl
@[simp] theorem presentSequence_shDin (din : ByteSeq) (n : Nat) : (s.presentSequence din n).shDin = din := rfl
@[simp] theorem presentSequence_shPositions (din : ByteSeq) (n : Nat) : (s.presentSequence din n).shPositions = n := rfl
@[simp] theorem presentSequence_addA (din : ByteSeq) (n : Nat) : (s.presentSequence din n).addA = s.addA := rfl
@[simp] theorem presentSequence_addB (din : ByteSeq) (n : Nat) : (s.presentSequence din n).addB = s.addB := rfl
@[simp] theorem presentSequence_machine (din : ByteSeq) (n : Nat) : (s.presentSequence din n).machine = s.machine := rfl
@[simp] theorem presentSequence_delivered (din : ByteSeq) (n : Nat) : (s.presentSequence din n).delivered = s.delivered := rfl

/-! ### `presentOperands` -/

@[simp] theorem presentOperands_op (a b : Work) : (s.presentOperands a b).op = s.op := rfl
@[simp] theorem presentOperands_encValue (a b : Work) : (s.presentOperands a b).encValue = s.encValue := rfl
@[simp] theorem presentOperands_decIn (a b : Work) : (s.presentOperands a b).decIn = s.decIn := rfl
@[simp] theorem presentOperands_shDin (a b : Work) : (s.presentOperands a b).shDin = s.shDin := rfl
@[simp] theorem presentOperands_shPositions (a b : Work) : (s.presentOperands a b).shPositions = s.shPositions := rfl
@[simp] theorem presentOperands_addA (a b : Work) : (s.presentOperands a b).addA = a := rfl
@[simp] theorem presentOperands_addB (a b : Work) : (s.presentOperands a b).addB = b := rfl
@[simp] theorem presentOperands_machine (a b : Work) : (s.presentOperands a b).machine = s.machine := rfl
@[simp] theorem presentOperands_delivered (a b : Work) : (s.presentOperands a b).delivered = s.delivered := rfl

/-! ### `presentWireOperands` -/

@[simp] theorem presentWireOperands_op (x y : Wire) : (s.presentWireOperands x y).op = s.op := rfl
@[simp] theorem presentWireOperands_encValue (x y : Wire) : (s.presentWireOperands x y).encValue = s.encValue := rfl
@[simp] theorem presentWireOperands_decIn (x y : Wire) : (s.presentWireOperands x y).decIn = s.decIn := rfl
@[simp] theorem presentWireOperands_shDin (x y : Wire) : (s.presentWireOperands x y).shDin = s.shDin := rfl
@[simp] theorem presentWireOperands_shPositions (x y : Wire) : (s.presentWireOperands x y).shPositions = s.shPositions := rfl
@[simp] theorem presentWireOperands_addA (x y : Wire) : (s.presentWireOperands x y).addA = x.rev := rfl
@[simp] theorem presentWireOperands_addB (x y : Wire) : (s.presentWireOperands x y).addB = y.rev := rfl
@[simp] theorem presentWireOperands_machine (x y : Wire) : (s.presentWireOperands x y).machine = s.machine := rfl
@[simp] theorem presentWireOperands_delivered (x y : Wire) : (s.presentWireOperands x y).delivered = s.delivered := rfl

/-! ### The output ports -/

@[simp] theorem deliver_toInputs (r : Reply Native) : (s.deliver r).toInputs = s.toInputs := rfl

@[simp] theorem deliver_deliver (r r' : Reply Native) : (s.deliver r).deliver r' = s.deliver r' := rfl

@[simp] theorem deliver_encOut (r : Reply Native) : (s.deliver r).encOut = s.encOut := rfl
@[simp] theorem deliver_encRangeErr (r : Reply Native) : (s.deliver r).encRangeErr = s.encRangeErr := rfl
@[simp] theorem deliver_decValue (r : Reply Native) : (s.deliver r).decValue = s.decValue := rfl
@[simp] theorem deliver_shDout (r : Reply Native) : (s.deliver r).shDout = s.shDout := rfl
@[simp] theorem deliver_addSum (r : Reply Native) : (s.deliver r).addSum = s.addSum := rfl
@[simp] theorem deliver_addRangeErr (r : Reply Native) : (s.deliver r).addRangeErr = s.addRangeErr := rfl
@[simp] theorem deliver_sumWire (r : Reply Native) : (s.deliver r).sumWire = s.sumWire := rfl

theorem encOut_eq : s.encOut = encodeNative Native.format s.encValue := rfl

theorem encRangeErr_eq : s.encRangeErr = s.encOut.map rangeErr := rfl

theorem decValue_eq : s.decValue = .finite (fpDecode s.decIn) := rfl

theorem addSum_eq : s.addSum = fpAdd s.addA s.addB := rfl

theorem addRangeErr_eq : s.addRangeErr = rangeErr s.addSum := rfl

/-- `dout` shows SHR1 while that is selected, SHR otherwise. -/
theorem shDout_eq : s.shDout = if decodeSelector s.op = .ok .shr1 then shr1 s.shDin else shr s.shDin s.shPositions := by
  unfold State.shDout Inputs.doutPort Inputs.tiedPositions
  split
  · simp_all [shr]
  · rename_i h; rw [if_neg h]

end Sys2Proof.Machine
end

