-- ==== Sys2Proof/Laws/Exec.lean ====
section
/-! SUPPORT. What one invocation answers, by operation, and that it only delivers. -/

namespace Sys2Proof.Machine

variable (s : State)

theorem exec_encode_of_toQ (q : ℚ) (h : s.encValue.toQ = some q) :
    exec .encode s = .next (s.deliver (.enc (fpEncode q))) := by
  simp only [exec, execEncode, encodeNative_of_toQ Native.format s.encValue q h]

theorem exec_encode_of_none (h : s.encValue.toQ = none) :
    exec .encode s = .refused (.valueNotFinite s.encValue) := by
  simp only [exec, execEncode, encodeNative_of_none Native.format s.encValue h]

@[simp] theorem exec_decode : exec .decode s = .next (s.deliver (.value (.finite (fpDecode s.decIn)))) := rfl

@[simp] theorem exec_shr1 : exec .shr1 s = .next (s.deliver (.dout (shr1 s.shDin))) := rfl

@[simp] theorem exec_shr : exec .shr s = .next (s.deliver (.dout (shr s.shDin s.shPositions))) := rfl

@[simp] theorem exec_add : exec .add s = .next (s.deliver (.sum (fpAdd s.addA s.addB))) := rfl

/-- Two deliveries from one state are equal exactly when the replies are. -/
theorem next_deliver_inj (r r' : Reply Native) :
    (Host.Outcome.next (s.deliver r) : Host.Outcome State Fault Refusal) = .next (s.deliver r') ↔ r = r' := by
  constructor
  · intro h; injection h with h; simpa using congrArg State.delivered h
  · rintro rfl; rfl

/-- Everything an invocation can do when it answers a next state: it delivers its block's result. -/
theorem exec_next_cases (i : Instr) (t : State) (h : exec i s = .next t) :
    (i = .encode ∧ ∃ q, s.encValue.toQ = some q ∧ t = s.deliver (.enc (fpEncode q))) ∨
    (i = .decode ∧ t = s.deliver (.value (.finite (fpDecode s.decIn)))) ∨
    (i = .shr1 ∧ t = s.deliver (.dout (shr1 s.shDin))) ∨
    (i = .shr ∧ t = s.deliver (.dout (shr s.shDin s.shPositions))) ∨
    (i = .add ∧ t = s.deliver (.sum (fpAdd s.addA s.addB))) := by
  cases i with
  | encode =>
    cases hq : s.encValue.toQ with
    | none => rw [exec_encode_of_none s hq] at h; cases h
    | some q => rw [exec_encode_of_toQ s q hq] at h; cases h; exact .inl ⟨rfl, q, rfl, rfl⟩
  | decode => cases h; exact .inr (.inl ⟨rfl, rfl⟩)
  | shr1 => cases h; exact .inr (.inr (.inl ⟨rfl, rfl⟩))
  | shr => cases h; exact .inr (.inr (.inr (.inl ⟨rfl, rfl⟩)))
  | add => cases h; exact .inr (.inr (.inr (.inr ⟨rfl, rfl⟩)))

/-- A step that answers a next state ran the operation the select input names. -/
theorem step_next_exec (t : State) (h : step s = .next t) :
    ∃ i, decodeSelector s.op = .ok i ∧ exec i s = .next t := by
  unfold step at h
  split at h
  · exact ⟨_, ‹_›, h⟩
  · cases h

end Sys2Proof.Machine
end

