-- ==== Sys2Proof/Laws/PerInstr.lean ====
section
/-! SUPPORT. One lemma per operation of the facts stated "for all instructions" about its selector. -/

namespace Sys2Proof.Laws.SelectorNumber

/-- The operation's selector value selects an operation, and the opcode table's word for it, read as the table numbers
its bits, names the operation (30_encoding.md R53). -/
def Statement (i : Instr) : Prop :=
  i.wf = true ∧ selectorWf (encodeSelector i) = true ∧ decodeTableWord 8 (encodeSelector i).toNat = some i

theorem encode : Statement .encode := ⟨rfl, rfl, rfl⟩

theorem decode : Statement .decode := ⟨rfl, rfl, rfl⟩

theorem shr1 : Statement .shr1 := ⟨rfl, rfl, rfl⟩

theorem shr : Statement .shr := ⟨rfl, rfl, rfl⟩

theorem add : Statement .add := ⟨rfl, rfl, rfl⟩

end Sys2Proof.Laws.SelectorNumber
end

