-- ==== Sys2Proof/Tests/Slice0.lean ====
section
/-! SUPPORT. Tests: what the checks of WellFormed refuse, the selector words, vectors of 95_test_vectors.md (each
comment names the row), and for every obligation with hypotheses a state and operands that meet them together. -/

-- One theorem at a time: the kernel evaluations side by side ask for more thread stacks than a small machine has.
set_option Elab.async false

namespace Sys2Proof.Tests

open Sys2Proof.Machine

/-! ### Helpers: one step on a small state -/

/-- What one invocation delivers. -/
def delivers (i : Instr) (s : State) : Option (Reply Native) :=
  match exec i s with
  | .next t => some t.delivered
  | _ => none

/-- What ENCODE of `q` delivers. -/
def encoded (q : ℚ) : Option (Reply Native) := delivers .encode (State.reset.presentValue (.finite q))

/-- What DECODE of `w` delivers. -/
def decoded (w : Wire) : Option (Reply Native) := delivers .decode (State.reset.presentRecord w)

/-- What `i` (SHR1 or SHR) delivers. -/
def shifted (i : Instr) (s : ByteSeq) (n : Nat) : Option (Reply Native) := delivers i (State.reset.presentSequence s n)

/-- What ADD of `a` and `b` delivers. -/
def added (a b : Work) : Option (Reply Native) := delivers .add (State.reset.presentOperands a b)

/-! ### What the checks refuse -/

theorem test_wf_refuses_reserved_selectors :
    selectorWf 5 = false ∧ selectorWf 6 = false ∧ selectorWf 7 = false ∧ selectorWf 4 = true := by decide

theorem test_wf_refuses_non_finite_values :
    Native.wf .nan = false ∧ Native.wf (.infinite true) = false ∧ Native.wf .negZero = true := by decide

theorem test_wf_refuses_shifter_without_bytes :
    ShifterBlock.wf ⟨0, 8⟩ = false ∧ ShifterBlock.wf Config.adderShifter = true := by decide

theorem test_wf_refuses_wrong_length_and_wide_positions :
    Config.adderShifter.accepts [0, 0, 0] 1 = false ∧ Config.adderShifter.accepts [0, 0, 0, 0] 256 = false ∧
      Config.adderShifter.accepts [0, 0, 0, 0] 255 = true := by decide

/-! ### The selector words, bit by bit (30_encoding.md R53) -/

theorem test_selector_000_is_encode : decodeSelector 0b000#3 = .ok .encode := rfl

theorem test_selector_001_is_decode : decodeSelector 0b001#3 = .ok .decode := rfl

theorem test_selector_010_is_shr1 : decodeSelector 0b010#3 = .ok .shr1 := rfl

theorem test_selector_011_is_shr : decodeSelector 0b011#3 = .ok .shr := rfl

theorem test_selector_100_is_add : decodeSelector 0b100#3 = .ok .add := rfl

theorem test_selectors_101_to_111_refused :
    decodeSelector 0b101#3 = .error (.reservedSelector 5) ∧ decodeSelector 0b110#3 = .error (.reservedSelector 6) ∧
      decodeSelector 0b111#3 = .error (.reservedSelector 7) := ⟨rfl, rfl, rfl⟩

theorem test_withFetchWord_runs_the_word :
    step (State.reset.withFetchWord 8 0b011) = exec .shr (State.reset.withFetchWord 8 0b011) := rfl

/-! ### ENCODE (95_test_vectors.md S7, 2.1) -/

theorem test_encode_truncates_and_signs :
    encoded (-1 / 10) = some (.enc (.ok ⟨0xCC, 0xCC, 0xCC, 0x7D⟩)) ∧
      encoded 33554431 = some (.enc (.ok ⟨0xFF, 0xFF, 0x7F, 0x99⟩)) ∧ encoded 1000000 = some (.enc (.ok ⟨0x00, 0x24, 0x74, 0x94⟩)) := by
  decide +kernel

theorem test_encode_range_edges :
    encoded (1 / 2 ^ 128) = some (.enc (.ok ⟨0x00, 0x00, 0x00, 0x01⟩)) ∧ encoded (1 / 2 ^ 129) = some (.enc (.error .encExp)) ∧
      encoded (2 ^ 127 - 2 ^ 102) = some (.enc (.ok ⟨0xFF, 0xFF, 0x7F, 0xFF⟩)) ∧
      encoded (-2 ^ 127) = some (.enc (.error .encExp)) := by
  decide +kernel

/-- The 64-bit pattern nearest 0.1 encodes to the bytes of S7; a NaN pattern and the negative zero are what G2 says. -/
theorem test_binary64_patterns :
    (Native.ofBinary64 0x3FB999999999999A).toQ.map fpEncode = some (.ok ⟨0xCC, 0xCC, 0x4C, 0x7D⟩) ∧
      Native.ofBinary64 0x7FF8000000000000 = .nan ∧ Native.ofBinary64 0xFFF0000000000000 = .infinite true ∧
      Native.ofBinary64 0x8000000000000000 = .negZero := by
  decide +kernel

/-! ### DECODE (95_test_vectors.md 2.2) -/

theorem test_decode_arbitrary_bytes_and_sign :
    decoded ⟨0x12, 0x34, 0x56, 0x78⟩ = some (.value (.finite (7019017 / 2147483648))) ∧
      decoded ⟨0xFF, 0xFF, 0xFF, 0xFF⟩ = some (.value (.finite (-170141173319264429905852091742258462720))) := by
  decide +kernel

theorem test_decode_exponent_byte_zero_is_zero : decoded ⟨0x00, 0x00, 0x80, 0x00⟩ = some (.value (.finite 0)) := by
  decide +kernel

/-! ### SHR1 and SHR (95_test_vectors.md 2.3) -/

theorem test_shr1_carries_between_bytes :
    shifted .shr1 [0xDE, 0xAD, 0xBE, 0xEF] 31 = some (.dout [0x6F, 0x56, 0xDF, 0x77]) ∧
      shifted .shr1 [0x01, 0x00, 0x00, 0x00] 0 = some (.dout [0x00, 0x80, 0x00, 0x00]) ∧ shifted .shr1 [] 1 = some (.dout []) := by
  decide +kernel

theorem test_shr_five_bytes_and_past_width :
    shifted .shr [0x01, 0x02, 0x03, 0x04, 0x05] 12 = some (.dout [0x00, 0x00, 0x10, 0x20, 0x30]) ∧
      shifted .shr [0xDE, 0xAD, 0xBE, 0xEF] 13 = some (.dout [0x00, 0x06, 0xF5, 0x6D]) ∧
      shifted .shr [0xDE, 0xAD, 0xBE, 0xEF] 33 = some (.dout [0x00, 0x00, 0x00, 0x00]) := by
  decide +kernel

/-! ### ADD (95_test_vectors.md 2.4) and ADDW (2.5) -/

theorem test_add_ripple_case_three_and_swap :
    added ⟨0x98, 0x7F, 0xFF, 0xFF⟩ ⟨0x81, 0x00, 0x00, 0x00⟩ = some (.sum (.ok ⟨0x99, 0x00, 0x00, 0x00⟩)) ∧
      added ⟨0x7D, 0x4C, 0xCC, 0xCC⟩ ⟨0x7D, 0x4C, 0xCC, 0xCC⟩ = some (.sum (.ok ⟨0x7E, 0x0C, 0xCC, 0xCC⟩)) ∧
      added ⟨0x87, 0x48, 0x00, 0x00⟩ ⟨0x7A, 0x23, 0xD7, 0x0A⟩ = some (.sum (.ok ⟨0x87, 0x48, 0x05, 0x1E⟩)) := by
  decide +kernel

theorem test_add_error_and_pass_through :
    added ⟨0xFF, 0x7F, 0xFF, 0xFF⟩ ⟨0xFF, 0x00, 0x00, 0x00⟩ = some (.sum (.error .addExp)) ∧
      added ⟨0x00, 0x12, 0x34, 0x56⟩ ⟨0x00, 0xAA, 0xBB, 0xCC⟩ = some (.sum (.ok ⟨0x00, 0x12, 0x34, 0x56⟩)) ∧
      added ⟨0x82, 0xC0, 0x00, 0x00⟩ ⟨0x00, 0x00, 0x00, 0x00⟩ = some (.sum (.ok ⟨0x82, 0xC0, 0x00, 0x00⟩)) := by
  decide +kernel

theorem test_addWire_crosses_lanes :
    addWire ⟨0x00, 0x00, 0x00, 0x81⟩ ⟨0x00, 0x00, 0x00, 0x82⟩ = .ok ⟨0x00, 0x00, 0x40, 0x82⟩ ∧
      addWire ⟨0x00, 0x00, 0x00, 0xFF⟩ ⟨0x00, 0x00, 0x00, 0xFF⟩ = .error .addExp := by
  decide +kernel

/-- The misuse row of section 2.5: wire bytes given to ADD unreversed. -/
theorem test_add_unreversed_bytes :
    added (Work.ofUnreversed ⟨0xCC, 0xCC, 0x4C, 0x7D⟩) (Work.ofUnreversed ⟨0xCC, 0xCC, 0x4C, 0x7D⟩) =
      some (.sum (.ok ⟨0xCD, 0x0C, 0x4C, 0x7D⟩)) := by
  decide +kernel

/-- Cause codes (60_exceptions.md R105). -/
theorem test_cause_codes :
    causeCode (fpEncode 1) = 0 ∧ causeCode (fpEncode (2 ^ 127)) = 1 ∧
      causeCode (fpAdd ⟨0xFF, 0, 0, 0⟩ ⟨0xFF, 0, 0, 0⟩) = 2 := by
  decide +kernel

/-! ### Witnesses: states and operands that meet the hypotheses of each obligation -/

/-- Operands of every block off their starting levels: 3/2 on the encoder, -3 on the decoder, two bytes shifted by 3,
3/2 and 1 on the adder. -/
def busy : State :=
  (((State.reset.presentValue (.finite (3 / 2))).presentRecord ⟨0x00, 0x00, 0xC0, 0x82⟩).presentSequence
    [0x12, 0x34] 3).presentOperands ⟨0x81, 0x40, 0x00, 0x00⟩ ⟨0x81, 0x00, 0x00, 0x00⟩

theorem busy_toQ : busy.encValue.toQ = some (3 / 2) := rfl

theorem three_halves_scale : BinaryScale (3 / 2) 1 := by
  constructor <;> norm_num [abs_of_pos]

theorem exec_next_busy (i : Instr) : ∃ t, exec i busy = .next t := by
  cases i <;> exact ⟨_, rfl⟩

theorem test_witness_SelectorValuesFiveToSevenRefused :
    5 ≤ (5 : BitVec 3).toNat ∧ 5 ≤ (7 : BitVec 3).toNat ∧ (0 : BitVec 3).toNat < 5 ∧ (4 : BitVec 3).toNat < 5 ∧
      5 ≤ (State.reset.presentOp 5).op.toNat := by decide

theorem test_witness_SelectorRoundTrip :
    Instr.wf .add = true ∧ decodeSelector 4 = .ok .add ∧ decodeSelector 0 = .ok .encode := ⟨rfl, rfl, rfl⟩

theorem test_witness_StepRunsSelectedOperation : decodeSelector (busy.presentOp 4).op = .ok .add := rfl

theorem test_witness_StepCompletesExactlyWhenReady :
    Ready (busy.presentOp 0) ∧ ¬ Ready (busy.presentOp 5) ∧ ¬ Ready (busy.presentValue .nan) := by
  refine ⟨⟨rfl, fun _ => rfl⟩, fun h => ?_, fun h => ?_⟩
  · exact absurd h.1 (by decide)
  · exact absurd (h.2 rfl) (by decide)

theorem test_witness_InvocationDrivesOnlyItsOutput :
    (∀ i, ∃ t, exec i busy = .next t) ∧ Block.fpDecoder ≠ Instr.encode.block ∧
      (∃ t, exec .add State.reset = .next t) ∧ State.reset.addB.exponent = 0 ∧
      (State.reset.presentOperands Work.zero ⟨1, 0, 0, 0⟩).addB.exponent ≠ 0 ∧
      (State.reset.presentOperands Work.zero ⟨1, 0, 0, 0⟩).addA.exponent = 0 ∧
      (∃ t, exec .add (State.reset.presentOperands Work.zero ⟨1, 0, 0, 0⟩) = .next t) :=
  ⟨exec_next_busy, by decide, ⟨_, rfl⟩, rfl, by decide, rfl, ⟨_, rfl⟩⟩

theorem test_witness_OutputDependsOnOwnInputsOnly :
    SameBlockInputs (Instr.block .add) busy.toInputs (busy.presentValue .nan).toInputs ∧ (∃ t, exec .add busy = .next t) ∧
      (∃ t, exec .add (busy.presentValue .nan) = .next t) :=
  ⟨⟨rfl, rfl⟩, ⟨_, rfl⟩, ⟨_, rfl⟩⟩

theorem test_witness_InvocationsAreIndependent :
    (∀ i, ∃ t, exec i busy = .next t) ∧
      (∃ t, exec .encode (busy.presentValue (.finite (2 ^ 127))) = .next t ∧ t.delivered = .enc (.error .encExp)) :=
  ⟨exec_next_busy, ⟨_, rfl, by decide +kernel⟩⟩

/-- After DECODE, the select input at ADD: something is held, and the next step answers. -/
def busyAfterDecode : State := (busy.presentOp 4).deliver (.value (.finite (-3)))

theorem test_witness_StepKeepsOutputsWellFormed :
    OutputsWf busyAfterDecode ∧ DeliveredWf busyAfterDecode ∧ (∃ t, step busyAfterDecode = .next t) ∧
      ¬ DeliveredWf (busy.deliver (.enc (.error .addExp))) := by
  refine ⟨⟨fun r h => ?_, ⟨-3, by rw [decValue_eq]; exact congrArg _ (by decide +kernel), .inr ?_⟩, ?_, ?_⟩,
    ⟨-3, rfl, .inr ?_⟩, ⟨_, rfl⟩, fun h => nomatch h⟩
  · rw [show busyAfterDecode.encOut = some (.ok ⟨0x00, 0x00, 0x40, 0x81⟩) by decide +kernel] at h
    cases h; exact fun h => absurd h (by decide)
  · constructor <;> norm_num
  · exact ⟨by decide +kernel, by decide +kernel⟩
  · rw [show busyAfterDecode.addSum = .ok ⟨0x82, 0x20, 0x00, 0x00⟩ by decide +kernel]
    exact ⟨by decide, by decide⟩
  · constructor <;> norm_num

/-- Both forms of `dout`, an operand that encodes, and a step. -/
theorem test_witness_OutputsFollowPresentInputs :
    busy.encValue.toQ = some (3 / 2) ∧ decodeSelector (busy.presentOp 2).op = .ok .shr1 ∧
      decodeSelector busy.op ≠ .ok .shr1 ∧ (∃ t, step busy = .next t) ∧
      (busy.presentOp 2).shDout = [0x09, 0x1A] ∧ busy.shDout = [0x02, 0x46] :=
  ⟨rfl, rfl, by decide, ⟨_, rfl⟩, by decide +kernel, by decide +kernel⟩

/-- `range_err` is not latched: a failed ENCODE, then 1 presented, then a step of ADD, as R104 has it. -/
theorem test_range_err_is_not_latched :
    (busy.presentValue (.finite (2 ^ 127))).encRangeErr = some 1 ∧
      (((busy.presentValue (.finite (2 ^ 127))).deliver (.enc (.error .encExp))).presentValue (.finite 1)).encRangeErr =
        some 0 ∧
      (busy.presentOperands ⟨0xFF, 0, 0, 0⟩ ⟨0xFF, 0, 0, 0⟩).addRangeErr = 1 ∧ busy.addRangeErr = 0 := by
  decide +kernel

/-- For RangeErrIsNotLatched: each invocation answers, also where it raises; the two classes of values. -/
theorem test_witness_RangeErrIsNotLatched :
    (∀ i, ∃ t, exec i busy = .next t) ∧ (∃ t, exec .encode (busy.presentValue (.finite (2 ^ 127))) = .next t) ∧
      (busy.presentValue .nan).encRangeErr = none ∧ Work.zero.exponent = 0 :=
  ⟨exec_next_busy, ⟨_, rfl⟩, rfl, rfl⟩

theorem test_witness_DeliveredIsWhatThePortsShow :
    (∀ i : Instr, decodeSelector (busy.presentOp (encodeSelector i)).op = .ok i ∧
      ∃ t, exec i (busy.presentOp (encodeSelector i)) = .next t) := by
  intro i; cases i <;> exact ⟨rfl, ⟨_, rfl⟩⟩

theorem test_witness_InvocationIsAFunctionOfTheInputs :
    invoke Native.format .encode (busy.presentValue .nan).toInputs = none ∧
      invoke Native.format .shr busy.toInputs = some (.dout [0x02, 0x46]) := by
  exact ⟨rfl, by decide +kernel⟩

theorem test_witness_NormalisationLoopsEnd :
    (2 ^ 127 : ℚ) ≠ 0 ∧ 1 / 2 ≤ |(1 / 2 : ℚ)| ∧ |(-1 / 3 : ℚ)| < 1 / 2 := by
  refine ⟨by norm_num, by norm_num [abs_of_pos], by norm_num [abs_of_neg]⟩

theorem test_witness_EncodeMatchesClosedForm :
    busy.encValue.toQ = some (3 / 2) ∧ BinaryScale (3 / 2) 1 ∧ State.reset.encValue.toQ = some 0 ∧
      BinaryScale (2 ^ 127) 128 ∧ (127 < (128 : ℤ)) ∧ BinaryScale (1 / 2 ^ 129) (-128) :=
  ⟨rfl, three_halves_scale, rfl, by constructor <;> norm_num [abs_of_pos], by norm_num,
    by constructor <;> norm_num [abs_of_pos]⟩

theorem test_witness_EncodeRaisesExactlyOutOfRange :
    busy.encValue.toQ = some (3 / 2) ∧ (3 / 2 : ℚ) ≠ 0 ∧
      exec .encode busy = .next (busy.deliver (.enc (.ok ⟨0x00, 0x00, 0x40, 0x81⟩))) ∧
      busy.encRangeErr = some 0 ∧ (busy.presentValue (.finite (2 ^ 127))).encRangeErr = some 1 ∧
      (∃ t, exec .encode (busy.presentValue (.finite (2 ^ 127))) = .next t ∧ t.delivered = .enc (.error .encExp)) ∧
      (∃ t, exec .add busy = .next t) := by
  refine ⟨rfl, by norm_num, ?_, by decide +kernel, by decide +kernel, ⟨_, rfl, by decide +kernel⟩, ⟨_, rfl⟩⟩
  rw [exec_encode_of_toQ busy _ rfl, show fpEncode (3 / 2) = .ok ⟨0x00, 0x00, 0x40, 0x81⟩ by decide +kernel]

theorem test_witness_EncodeDomain :
    (busy.presentValue .nan).encValue = .nan ∧ (busy.presentValue (.infinite true)).encValue = .infinite true ∧
      (busy.presentValue .negZero).encValue = .negZero ∧ State.reset.encValue = .finite 0 := ⟨rfl, rfl, rfl, rfl⟩

theorem test_witness_EncodedRecordInvariant :
    busy.encValue.toQ = some (3 / 2) ∧ (∃ t, exec .encode busy = .next t ∧ t.delivered = .enc (.ok ⟨0x00, 0x00, 0x40, 0x81⟩)) ∧
      State.reset.encValue.toQ = some 0 ∧ (∃ t, exec .encode State.reset = .next t ∧ t.delivered = .enc (.ok Wire.zero)) :=
  ⟨rfl, ⟨_, rfl, by decide +kernel⟩, rfl, ⟨_, rfl, by decide +kernel⟩⟩

/-- For EncodeTruncatesTowardZero, and for the clauses of DecodeAfterEncodeExactly. -/
theorem test_witness_EncodeTruncatesTowardZero :
    busy.encValue.toQ = some (3 / 2) ∧ BinaryScale (3 / 2) 1 ∧ (-127 : ℤ) ≤ 1 ∧ (1 : ℤ) ≤ 127 :=
  ⟨rfl, three_halves_scale, by norm_num, by norm_num⟩

theorem test_witness_EncodeNegationFlipsSignBit :
    (3 / 2 : ℚ) ≠ 0 ∧ busy = busy.presentValue (.finite (3 / 2)) ∧
      exec .encode busy = .next (busy.deliver (.enc (.ok ⟨0x00, 0x00, 0x40, 0x81⟩))) ∧
      (∀ s, s = busy.presentValue (.finite (2 ^ 127)) → exec .encode s = .next (s.deliver (.enc (.error .encExp)))) := by
  refine ⟨by norm_num, rfl, ?_, ?_⟩
  · rw [exec_encode_of_toQ _ (3 / 2) rfl, show fpEncode (3 / 2) = .ok ⟨0x00, 0x00, 0x40, 0x81⟩ by decide +kernel]
  · rintro s rfl
    rw [exec_encode_of_toQ _ (2 ^ 127) rfl, show fpEncode (2 ^ 127) = .error .encExp by decide +kernel]

/-- For DecodeDeliversValue, DecodeIsValAndItsRange, DecodeInjectiveOffZero (two records of value 0) and
EncodeAfterDecodeRestoresRecord. -/
theorem test_witness_DecodeStatements :
    busy.decIn.exponent ≠ 0 ∧ State.reset.decIn.exponent = 0 ∧ exec .decode busy =
      .next (busy.deliver (.value (.finite (-3)))) ∧
      (∃ t, exec .decode (busy.presentRecord ⟨0x01, 0x00, 0x80, 0x00⟩) = .next t ∧ t.delivered = .value (.finite 0)) ∧
      (∃ t, exec .decode State.reset = .next t ∧ t.delivered = .value (.finite 0)) := by
  refine ⟨by decide, rfl, ?_, ⟨_, rfl, by decide +kernel⟩, ⟨_, rfl, by decide +kernel⟩⟩
  rw [exec_decode, show fpDecode busy.decIn = -3 by decide +kernel]

/-- For ShrAppliesShr1PositionsTimes, ShrZeroExactlyWhenShiftedOut and ShiftsCompose. -/
theorem test_witness_ShrStatements :
    busy.shPositions = 3 ∧ (busy.presentSequence [0xFF] 0).shPositions = 0 ∧
      8 * (busy.presentSequence [0xFF] 8).shDin.length ≤ (busy.presentSequence [0xFF] 8).shPositions ∧
      (∃ t, exec .shr busy = .next t) ∧ (busy.presentSequence [0xDE, 0xAD, 0xBE, 0xEF] 31).shDin = [0xDE, 0xAD, 0xBE, 0xEF] ∧
      (busy.presentSequence [0xDE, 0xAD, 0xBE, 0xEF] 31).shPositions = 31 ∧ 1 < ([0x12, 0x34] : ByteSeq).length :=
  ⟨rfl, rfl, by decide, ⟨_, rfl⟩, rfl, rfl, by decide⟩

theorem test_witness_AddPassesOverZero :
    State.reset.addB.exponent = 0 ∧
      (State.reset.presentOperands Work.zero ⟨0x90, 0xAA, 0xBB, 0xCC⟩).addB.exponent ≠ 0 ∧
      (State.reset.presentOperands Work.zero ⟨0x90, 0xAA, 0xBB, 0xCC⟩).addA.exponent = 0 := by decide

theorem test_witness_AddOrdersByExponentByte :
    (⟨1, 0, 0, 0⟩ : Work).exponent.toNat < (⟨255, 0, 0, 0⟩ : Work).exponent.toNat ∧
      (⟨255, 0, 0, 0⟩ : Work).exponent.toNat ≤ (⟨255, 0, 0, 0⟩ : Work).exponent.toNat ∧
      (⟨255, 0, 0, 0⟩ : Work).exponent ≠ 0 ∧ (⟨1, 0, 0, 0⟩ : Work).exponent ≠ 0 := by decide

/-- 3/2 + 1: both exponent bytes non-zero, carry, case 2; for AddMatchesClosedForm, AddIsEncodedMagnitudeSum and
AddResultShape. -/
theorem test_witness_AddSumPath :
    busy.addA.exponent ≠ 0 ∧ busy.addB.exponent ≠ 0 ∧ alignedSum busy.addA busy.addB < 3 * 2 ^ 23 ∧
      (higherOf busy.addA busy.addB).exponent.toNat + carry1Of busy.addA busy.addB ≠ 256 ∧
      (∃ t, exec .add busy = .next t ∧ t.delivered = .sum (.ok ⟨0x82, 0x20, 0x00, 0x00⟩)) := by
  refine ⟨by decide, by decide, by decide +kernel, by decide +kernel, ⟨_, rfl, by decide +kernel⟩⟩

/-- AddIsEncodedMagnitudeSum at the ends of its ranges: case 1 (`S = 2^23` and `S = 2^24 - 1`), case 2 just below
`3 * 2^23`, and the exponent 256 (both raise). -/
theorem test_witness_AddIsEncodedMagnitudeSum :
    alignedSum ⟨0x99, 0x00, 0x00, 0x00⟩ ⟨0x81, 0x00, 0x00, 0x00⟩ = 2 ^ 23 ∧
      alignedSum ⟨0x81, 0x7F, 0xFF, 0xFF⟩ ⟨0x69, 0x00, 0x00, 0x00⟩ = 2 ^ 24 - 1 ∧
      alignedSum ⟨0x81, 0x40, 0x00, 0x00⟩ ⟨0x81, 0x3F, 0xFF, 0xFF⟩ = 3 * 2 ^ 23 - 1 ∧
      added ⟨0x81, 0x40, 0x00, 0x00⟩ ⟨0x81, 0x3F, 0xFF, 0xFF⟩ = some (.sum (.ok ⟨0x82, 0x3F, 0xFF, 0xFF⟩)) ∧
      alignedSum ⟨0xFF, 0x00, 0x00, 0x00⟩ ⟨0xFF, 0x00, 0x00, 0x00⟩ < 3 * 2 ^ 23 ∧
      (higherOf ⟨0xFF, 0x00, 0x00, 0x00⟩ ⟨0xFF, 0x00, 0x00, 0x00⟩).exponent.toNat +
        carry1Of ⟨0xFF, 0x00, 0x00, 0x00⟩ ⟨0xFF, 0x00, 0x00, 0x00⟩ = 256 := by decide +kernel

/-- Non-zero operands with `carry1` 1 and `higher`'s exponent byte below 255, and at its bound 254. -/
theorem test_witness_AdderStaysWithinItsShifter :
    ∀ e : Byte, e = 0x81 ∨ e = 0xFE → e ≠ 0 ∧ carry1Of ⟨e, 0x40, 0x00, 0x00⟩ ⟨e, 0x00, 0x00, 0x00⟩ = 1 ∧
      (higherOf ⟨e, 0x40, 0x00, 0x00⟩ ⟨e, 0x00, 0x00, 0x00⟩).exponent ≠ 255 := by
  rintro e (rfl | rfl) <;> decide +kernel

/-- `3/4 + 3/4` sits at the bound `3 * 2^23` of case 3; the largest exponent byte of that case is 254. -/
theorem test_witness_AddLosesQuarterInCaseThree :
    (∀ e : Byte, e = 0x80 ∨ e = 0xFE →
      3 * 2 ^ 23 ≤ alignedSum ⟨e, 0x40, 0x00, 0x00⟩ ⟨e, 0x40, 0x00, 0x00⟩ ∧
      (higherOf ⟨e, 0x40, 0x00, 0x00⟩ ⟨e, 0x40, 0x00, 0x00⟩).exponent.toNat ≤ 254 ∧ e ≠ 0) := by
  rintro e (rfl | rfl) <;> decide +kernel

/-- `d = 24` of 95_test_vectors.md 2.4. -/
theorem test_witness_AddFarApartKeepsHigher :
    (⟨0x90, 0xFF, 0xFF, 0xFF⟩ : Work).exponent ≠ 0 ∧ (⟨0x78, 0x7F, 0xFF, 0xFF⟩ : Work).exponent ≠ 0 ∧
      24 ≤ expDiffOf ⟨0x90, 0xFF, 0xFF, 0xFF⟩ ⟨0x78, 0x7F, 0xFF, 0xFF⟩ := by decide +kernel

/-- For AddIgnoresSigns and AddCommutesUnlessBothZero. -/
theorem test_witness_AddIgnoresSigns_and_Commutes :
    (⟨0x81, 0x80, 0x00, 0x00⟩ : Work).exponent ≠ 0 ∧ (⟨0x81, 0x00, 0x00, 0x00⟩ : Work).exponent ≠ 0 ∧
      (∀ a b, ∃ t, exec .add (busy.presentOperands a b) = .next t) ∧
      (⟨0x00, 0x12, 0x34, 0x56⟩ : Work).exponent = 0 ∧ (⟨0x00, 0xAA, 0xBB, 0xCC⟩ : Work).exponent = 0 :=
  ⟨by decide, by decide, fun _ _ => ⟨_, rfl⟩, rfl, rfl⟩

theorem test_witness_AddRaisesExactlyPast255 :
    (busy.presentOperands ⟨0xFF, 0, 0, 0⟩ ⟨0xFF, 0, 0, 0⟩).addRangeErr = 1 ∧ busy.addRangeErr ≠ 1 ∧
      busy.addA.exponent ≠ 0 ∧ busy.addB.exponent ≠ 0 ∧
      (∃ t, exec .add (busy.presentOperands ⟨0xFF, 0, 0, 0⟩ ⟨0xFF, 0, 0, 0⟩) = .next t ∧
        t.delivered = .sum (.error .addExp)) ∧
      (∃ t, exec .encode busy = .next t) :=
  ⟨by decide +kernel, by decide +kernel, by decide, by decide, ⟨_, rfl, by decide +kernel⟩, ⟨_, rfl⟩⟩

/-- For AddWireIsAddWithCrossedLanes and AddReadsUnreversedBytesAsTheyStand. -/
theorem test_witness_AddWire_and_unreversed :
    fpAdd (Wire.rev ⟨0x00, 0x00, 0x00, 0x81⟩) (Wire.rev ⟨0x00, 0x00, 0x00, 0x82⟩) = .ok ⟨0x82, 0x40, 0x00, 0x00⟩ ∧
      addWire ⟨0x00, 0x00, 0x00, 0xFF⟩ ⟨0x00, 0x00, 0x00, 0xFF⟩ = .error .addExp ∧
      (⟨0x00, 0x00, 0x00, 0x82⟩ : Wire).mantissaLow = 0 ∧ (⟨0xCC, 0xCC, 0x4C, 0x7D⟩ : Wire).mantissaLow ≠ 0 := by
  decide +kernel

/-- A native format that holds what DECODE can deliver, a value it encodes, and one outside ENCODE's domain. -/
theorem test_witness_AnyNativeFormatOnTheCodec :
    NativeFormat.rationals.HoldsRecordValues ∧ NativeFormat.rationals.toQ (3 / 2) = some (3 / 2) ∧
      Native.format.toQ .nan = none := ⟨fun _ => rfl, rfl, rfl⟩

/-- 0.1's truncation and -3 as 64-bit patterns: DECODE's results on a binary64 `value` port. -/
theorem test_decode_to_binary64 :
    decodeNative NativeFormat.binary64 ⟨0xCC, 0xCC, 0x4C, 0x7D⟩ = 0x3FB9999980000000 ∧
      decodeNative NativeFormat.binary64 ⟨0x00, 0x00, 0xC0, 0x82⟩ = 0xC008000000000000 := by
  decide +kernel

/-- Infinity and the largest subnormal of G2's format, and its two zeros. -/
theorem test_witness_Binary64ValuesOnTheCodec :
    (0xFFF0000000000000#64).extractLsb' 52 11 = 2047 ∧ (0x8000000000000000#64).extractLsb' 0 63 = 0 ∧
      (0x0#64).extractLsb' 0 63 = 0 ∧ (0x000FFFFFFFFFFFFF#64).extractLsb' 52 11 = 0 ∧
      (0x000FFFFFFFFFFFFF#64).extractLsb' 0 52 ≠ 0 ∧ (∃ t, exec .decode busy = .next t) :=
  ⟨by decide, by decide, by decide, by decide, by decide, ⟨_, rfl⟩⟩

end Sys2Proof.Tests
end

/-! ### The frame of one invocation (10_state.md R20) -/

namespace Sys2Proof.Machine

/-- The whole change an invocation makes is the delivery of one reply of its own block. -/
theorem exec_next_delivers_own_block {i : Instr} {s t : State} (h : exec i s = .next t) :
    ∃ r : Reply Native, r.isOf i.block ∧ t = s.deliver r := by
  obtain ⟨rfl, q, -, ht⟩ | ⟨rfl, ht⟩ | ⟨rfl, ht⟩ | ⟨rfl, ht⟩ | ⟨rfl, ht⟩ := exec_next_cases s i t h
  · exact ⟨.enc (fpEncode q), rfl, ht⟩
  · exact ⟨.value (.finite (fpDecode s.decIn)), rfl, ht⟩
  · exact ⟨.dout (shr1 s.shDin), rfl, ht⟩
  · exact ⟨.dout (shr s.shDin s.shPositions), rfl, ht⟩
  · exact ⟨.sum (fpAdd s.addA s.addB), rfl, ht⟩

/-- A delivery moves no input level, hence no output level. -/
theorem deliver_keeps_ports (s : State) (r : Reply Native) :
    (s.deliver r).toInputs = s.toInputs ∧ (s.deliver r).encOut = s.encOut ∧ (s.deliver r).decValue = s.decValue ∧
      (s.deliver r).shDout = s.shDout ∧ (s.deliver r).addSum = s.addSum := by
  simp only [deliver_toInputs, deliver_encOut, deliver_decValue, deliver_shDout, deliver_addSum, and_self]

theorem exec_add_next_delivered {s t : State} (h : exec .add s = .next t) :
    t.delivered = .sum (fpAdd s.addA s.addB) := by
  rw [exec_add] at h
  cases h
  exact deliver_delivered s _

/-- The test of `b` comes first (42_adder.md R84). -/
theorem fpAdd_of_right_zero (a b : Work) (hb : b.exponent = 0) : fpAdd a b = .ok a := by
  obtain ⟨-, hsum⟩ | ⟨hb', -⟩ | ⟨hb', -⟩ := fpAdd_cases a b
  · exact hsum
  · exact absurd hb hb'
  · exact absurd hb hb'

theorem fpAdd_of_left_zero (a b : Work) (hb : b.exponent ≠ 0) (ha : a.exponent = 0) : fpAdd a b = .ok b := by
  obtain ⟨hb', -⟩ | ⟨-, -, hsum⟩ | ⟨-, ha', -⟩ := fpAdd_cases a b
  · exact absurd hb' hb
  · exact hsum
  · exact absurd ha ha'

/-- Settles O6: every invocation is a delivery, and a delivery moves no port; ADD's two zero paths pass the other
operand on as it stands. -/
theorem invocationDrivesOnlyItsOutput : Obligations.InvocationDrivesOnlyItsOutput := by
  refine ⟨fun i s t h => ?_, fun s t h hb => ?_, fun s t h hb ha => ?_⟩
  · obtain ⟨r, hown, rfl⟩ := exec_next_delivers_own_block h
    obtain ⟨hinputs, houtputs⟩ := deliver_keeps_ports s r
    exact ⟨hinputs, houtputs, r, hown, rfl⟩
  · rw [exec_add_next_delivered h, fpAdd_of_right_zero s.addA s.addB hb]
  · rw [exec_add_next_delivered h, fpAdd_of_left_zero s.addA s.addB hb ha]

end Sys2Proof.Machine

/-! ### The record and its encoding (30_encoding.md R40, R46, R48) -/

namespace Sys2Proof.Machine

/-! #### The two layouts -/

theorem rev_bytes_eq_reverse (w : Wire) : w.rev.bytes = w.bytes.reverse := rfl

theorem work_rev_bytes_eq_reverse (k : Work) : k.rev.bytes = k.bytes.reverse := rfl

theorem wire_bytes_length (w : Wire) : w.bytes.length = 4 := rfl

theorem byteAt_reverse (s : ByteSeq) (i : Nat) (h : i < s.length) :
    byteAt s.reverse i = byteAt s (s.length - 1 - i) := by
  simp only [byteAt, List.getD_eq_getElem?_getD, List.getElem?_reverse h]

/-- Settles O16: the index clause is reversal of a sequence of four bytes. -/
theorem layoutsAreReversals : Obligations.LayoutsAreReversals := by
  refine ⟨fun w => ⟨rev_bytes_eq_reverse w, wire_rev_rev w, fun i hi => ?_⟩,
    fun k => ⟨work_rev_bytes_eq_reverse k, work_rev_rev k⟩⟩
  rw [rev_bytes_eq_reverse, byteAt_reverse w.bytes i hi, wire_bytes_length]

/-! #### The reconstructed mantissa -/

/-- The magnitude bits of a high byte, the second formula's `mantissa_high & 0x7F`. -/
theorem and_7F_toNat (b : Byte) : (b &&& 0x7F).toNat = b.toNat % 128 := by
  rw [BitVec.toNat_and]
  exact Nat.and_two_pow_sub_one_eq_mod b.toNat 7

theorem mantissa_eq_two_pow_add (mh mm ml : Byte) :
    mantissa mh mm ml = 2 ^ 23 + (mh &&& 0x7F).toNat * 65536 + mm.toNat * 256 + ml.toNat := by
  rw [mantissa_eq, and_7F_toNat]
  ring

theorem mantissa_range (mh mm ml : Byte) : 2 ^ 23 ≤ mantissa mh mm ml ∧ mantissa mh mm ml ≤ 2 ^ 24 - 1 := by
  have hmm := mm.isLt
  have hml := ml.isLt
  rw [mantissa_eq]
  omega

/-- The range as a fraction: `M / 2^24` is a normalised significand. -/
theorem mantissa_fraction_range (mh mm ml : Byte) :
    (1 / 2 : ℚ) ≤ (mantissa mh mm ml : ℚ) / 2 ^ 24 ∧ (mantissa mh mm ml : ℚ) / 2 ^ 24 < 1 := by
  obtain ⟨hlo, hhi⟩ := mantissa_range mh mm ml
  have hlo' : (2 ^ 23 : ℚ) ≤ mantissa mh mm ml := by exact_mod_cast hlo
  have hhi' : (mantissa mh mm ml : ℚ) < 2 ^ 24 := by exact_mod_cast (show mantissa mh mm ml < 2 ^ 24 by omega)
  constructor <;> linarith

/-- Settles O18: the first formula is the definition; the second separates the implied bit, and gives the range. -/
theorem reconstructedMantissaRange : Obligations.ReconstructedMantissaRange := by
  intro mh mm ml
  obtain ⟨hlo, hhi⟩ := mantissa_range mh mm ml
  exact ⟨rfl, mantissa_eq_two_pow_add mh mm ml, hlo, hhi, mantissa_fraction_range mh mm ml⟩

/-! #### What ENCODE produces, by where the counter ends (40_codec.md R57, R60, R61) -/

theorem fpEncode_of_counter_out_of_range (v : ℚ) (hv : v ≠ 0) (hc : (normalise v).2 < -127 ∨ 127 < (normalise v).2) :
    fpEncode v = .error .encExp := by
  have he : (normalise v).2 + Config.expBias < 1 ∨ 255 < (normalise v).2 + Config.expBias := by
    simp only [Config.expBias]; omega
  simp only [fpEncode, if_neg hv, if_pos he, raise]

theorem fpEncode_of_counter_in_range (v : ℚ) (hv : v ≠ 0) (hlo : -127 ≤ (normalise v).2) (hhi : (normalise v).2 ≤ 127) :
    fpEncode v = .ok
      ⟨(extractByte (extractByte (extractByte (normalise v).1).2).2).1, (extractByte (extractByte (normalise v).1).2).1,
        packSign (extractByte (normalise v).1).1 (if v < 0 then 1 else 0), BitVec.ofInt 8 ((normalise v).2 + 128)⟩ := by
  have he : ¬ ((normalise v).2 + Config.expBias < 1 ∨ 255 < (normalise v).2 + Config.expBias) := by
    simp only [Config.expBias]; omega
  simp only [fpEncode, if_neg hv, if_neg he]
  rfl

/-- The exponent byte of a non-zero value is its counter plus the bias, which the error's test keeps off 0. -/
theorem fpEncode_ok_exponent {v : ℚ} {w : Wire} (hv : v ≠ 0) (h : fpEncode v = .ok w) :
    (w.exponent.toNat : ℤ) = (normalise v).2 + 128 ∧ -127 ≤ (normalise v).2 ∧ (normalise v).2 ≤ 127 := by
  by_cases hc : (normalise v).2 < -127 ∨ 127 < (normalise v).2
  · rw [fpEncode_of_counter_out_of_range v hv hc] at h
    cases h
  · have hlo : -127 ≤ (normalise v).2 := by omega
    have hhi : (normalise v).2 ≤ 127 := by omega
    rw [fpEncode_of_counter_in_range v hv hlo hhi] at h
    cases h
    refine ⟨?_, hlo, hhi⟩
    rw [BitVec.toNat_ofInt]
    omega

theorem fpEncode_ok_exponent_ne_zero {v : ℚ} {w : Wire} (hv : v ≠ 0) (h : fpEncode v = .ok w) : w.exponent ≠ 0 := by
  obtain ⟨he, hlo, -⟩ := fpEncode_ok_exponent hv h
  intro h0
  have hbyte : w.exponent.toNat = 0 := by rw [h0]; rfl
  omega

theorem exec_encode_next_delivered {s t : State} {q : ℚ} (hq : s.encValue.toQ = some q) (h : exec .encode s = .next t) :
    t.delivered = .enc (fpEncode q) := by
  rw [exec_encode_of_toQ s q hq] at h
  cases h
  exact deliver_delivered s _

/-- Settles O23: zero takes the encoder's first branch, and a non-zero value's biased counter is at least 1. -/
theorem encodedRecordInvariant : Obligations.EncodedRecordInvariant := by
  refine ⟨fun s hq => ?_, fun s t q w hq h hw => ?_⟩
  · rw [exec_encode_of_toQ s 0 hq, fpEncode_zero]
    rfl
  · have hok : fpEncode q = .ok w := by
      rw [exec_encode_next_delivered hq h] at hw
      exact Reply.enc.inj hw
    have hzero : q = 0 → w = Wire.zero := by
      rintro rfl
      rw [fpEncode_zero] at hok
      exact (Except.ok.inj hok).symm
    refine ⟨⟨fun he => ?_, fun h0 => ?_⟩, hzero, fun _ => mantissa_range w.mantissaHigh w.mantissaMid w.mantissaLow⟩
    · by_contra hne
      exact fpEncode_ok_exponent_ne_zero hne hok he
    · rw [hzero h0]
      rfl

end Sys2Proof.Machine

/-! ### The codec: normalisation, the encoder's domain and its error, the decoder's value (40_codec.md) -/

namespace Sys2Proof.Machine

/-! #### The normalisation loops (40_codec.md R57, R58) -/

/-- The second loop is idle once `m` has reached 1/2, whatever bound it carries. -/
theorem doubleLoop_of_half_le (n : Nat) (m : ℚ) (c : ℤ) (h : 1 / 2 ≤ m) : doubleLoop n m c = (m, c) := by
  cases n with
  | zero => rfl
  | succ n => rw [doubleLoop, if_neg (not_lt.mpr h)]

/-- From `[1/4, 1/2)` the second loop runs exactly once. -/
theorem doubleLoop_of_quarter_le (n : Nat) (m : ℚ) (c : ℤ) (hlo : 1 / 4 ≤ m) (hhi : m < 1 / 2) :
    doubleLoop (n + 1) m c = (m * 2, c - 1) := by
  rw [doubleLoop, if_pos hhi, doubleLoop_of_half_le n (m * 2) (c - 1) (by linarith)]

/-- Settles O19: the first loop's range is what makes the second run once. -/
theorem normalisationLoopsEnd : Obligations.NormalisationLoopsEnd := by
  intro v hv
  obtain ⟨hbelow, -, hquarter, hidle⟩ := halveLoop_spec _ |v| 0 (abs_lt_two_pow_num v)
  refine ⟨fun hhalf => ?_, hidle, normalise_spec v hv⟩
  exact ⟨_, _, rfl, hquarter hhalf, hbelow, doubleLoop_of_quarter_le _ _ _ (hquarter hhalf) hbelow⟩

/-- The counter after normalisation is the binary scale of the value (40_codec.md R58, R62). -/
theorem binaryScale_normalise (v : ℚ) (hv : v ≠ 0) : BinaryScale v (normalise v).2 := by
  obtain ⟨hlo, hhi, hmag⟩ := normalise_spec v hv
  have hpos : (0 : ℚ) < 2 ^ (normalise v).2 := by positivity
  constructor
  · rw [hmag, zpow_sub_one₀ two_ne_zero]
    nlinarith
  · rw [hmag]
    nlinarith

theorem abs_lt_two_zpow_iff_scale_le {v : ℚ} {c : ℤ} (h : BinaryScale v c) (k : ℤ) : |v| < 2 ^ k ↔ c ≤ k := by
  obtain ⟨hlo, hhi⟩ := h
  constructor
  · intro hk
    have hexp : c - 1 < k := (zpow_lt_zpow_iff_right₀ one_lt_two).mp (hlo.trans_lt hk)
    omega
  · intro hk
    exact hhi.trans_le (zpow_le_zpow_right₀ one_le_two hk)

/-- The two forms of R61's condition: a counter outside -127 to 127 is a magnitude out of range. -/
theorem counter_out_of_range_iff (v : ℚ) :
    v ≠ 0 ∧ ((normalise v).2 < -127 ∨ 127 < (normalise v).2) ↔
      (0 < |v| ∧ |v| < 2 ^ (-128 : ℤ)) ∨ 2 ^ (127 : ℤ) ≤ |v| := by
  by_cases hv : v = 0
  · subst hv
    norm_num
  · have hscale := binaryScale_normalise v hv
    have hlow : |v| < 2 ^ (-128 : ℤ) ↔ (normalise v).2 < -127 := by
      rw [abs_lt_two_zpow_iff_scale_le hscale]
      omega
    have hhigh : 2 ^ (127 : ℤ) ≤ |v| ↔ 127 < (normalise v).2 := by
      rw [← not_lt, abs_lt_two_zpow_iff_scale_le hscale, not_le]
    rw [hlow, hhigh]
    simp only [ne_eq, hv, not_false_eq_true, abs_pos, true_and]

/-! #### The encoder's error (40_codec.md R61, 60_exceptions.md R102, R104) -/

/-- ENCODE raises, with the counter of a non-zero value out of range, or delivers a record. -/
theorem fpEncode_cases (v : ℚ) :
    ((v ≠ 0 ∧ ((normalise v).2 < -127 ∨ 127 < (normalise v).2)) ∧ fpEncode v = .error .encExp) ∨
    (¬ (v ≠ 0 ∧ ((normalise v).2 < -127 ∨ 127 < (normalise v).2)) ∧
      ∃ w : Wire, fpEncode v = .ok w ∧ (v ≠ 0 → (w.exponent.toNat : ℤ) = (normalise v).2 + 128)) := by
  by_cases hv : v = 0
  · subst hv
    exact .inr ⟨fun h => h.1 rfl, _, fpEncode_zero, fun h => absurd rfl h⟩
  · by_cases hc : (normalise v).2 < -127 ∨ 127 < (normalise v).2
    · exact .inl ⟨⟨hv, hc⟩, fpEncode_of_counter_out_of_range v hv hc⟩
    · have hok := fpEncode_of_counter_in_range v hv (by omega) (by omega)
      exact .inr ⟨fun h => hc h.2, _, hok, fun _ => (fpEncode_ok_exponent hv hok).1⟩

theorem encRangeErr_of_toQ {s : State} {q : ℚ} (hq : s.encValue.toQ = some q) :
    s.encRangeErr = some (rangeErr (fpEncode q)) := by
  rw [encRangeErr_eq, encOut_eq, encodeNative_of_toQ Native.format s.encValue q hq, Option.map_some]

@[simp] theorem rangeErr_ok {α : Type} (a : α) : rangeErr (.ok a) = 0 := rfl

@[simp] theorem rangeErr_error {α : Type} (e : RangeError) : rangeErr (.error e : Except RangeError α) = 1 := rfl

/-- Only ENCODE uses the encoder's block (30_encoding.md R52). -/
theorem block_eq_fpEncoder_iff (i : Instr) : i.block = .fpEncoder ↔ i = .encode := by
  cases i <;> decide

/-- A reply of the encoder came from an invocation of ENCODE. -/
theorem eq_encode_of_delivered_enc {i : Instr} {s t : State} {r : Except RangeError Wire} (h : exec i s = .next t)
    (hr : t.delivered = .enc r) : i = .encode := by
  obtain ⟨r', hown, rfl⟩ := exec_next_delivers_own_block h
  rw [deliver_delivered] at hr
  subst hr
  exact (block_eq_fpEncoder_iff i).mp hown

/-- The adder's only error is its own (60_exceptions.md R103). -/
theorem fpAdd_error_eq_addExp {a b : Work} {e : RangeError} (h : fpAdd a b = .error e) : e = .addExp := by
  obtain ⟨-, hsum⟩ | ⟨-, -, hsum⟩ | ⟨-, -, hsum⟩ := fpAdd_cases a b
  · rw [hsum] at h; cases h
  · rw [hsum] at h; cases h
  · rw [hsum, addNonzero] at h
    obtain ⟨-, hres⟩ | ⟨-, -, hres⟩ | ⟨-, -, hres⟩ := assembleSum_cases _ _
    · rw [hres] at h; cases h
    · rw [hres] at h; cases h; rfl
    · rw [hres] at h; cases h

/-- Settles O21: ENCODE raises on exactly one of its two ways, and `range_err` shows which; a reply names the block it
came from, and ADD's only error is ADD_EXP. -/
theorem encodeRaisesExactlyOutOfRange : Obligations.EncodeRaisesExactlyOutOfRange := by
  refine ⟨fun s q hq => ?_, fun i s t h ht => eq_encode_of_delivered_enc h ht, fun s t h ht => ?_⟩
  · rw [← counter_out_of_range_iff, encRangeErr_of_toQ hq, exec_encode_of_toQ s q hq]
    obtain ⟨hout, herr⟩ | ⟨hin, w, hok, hexp⟩ := fpEncode_cases q
    · rw [herr, rangeErr_error]
      have hiff := iff_of_true (rfl : some (1 : BitVec 1) = some 1) hout
      exact ⟨hiff, hiff, fun _ => rfl, fun hne => absurd rfl hne⟩
    · rw [hok, rangeErr_ok]
      have hne : some (0 : BitVec 1) ≠ some 1 := by decide
      have hiff := iff_of_false hne hin
      exact ⟨hiff, hiff, fun h1 => absurd h1 hne, fun _ => ⟨w, rfl, hexp⟩⟩
  · rw [exec_add_next_delivered h] at ht
    cases fpAdd_error_eq_addExp (Reply.sum.inj ht)

/-! #### The decoder's value (40_codec.md R66 to R68) -/

theorem fpDecode_of_exponent_zero {w : Wire} (h : w.exponent = 0) : fpDecode w = 0 := by
  rw [fpDecode, if_pos ((wire_isZero_iff w).mpr h)]

theorem signBit_eq_one_iff (b : Byte) : signBit b = 1 ↔ b.getLsbD 7 = true := by
  revert b; decide +kernel

/-- The division by `2^(24 - te)` is one scaling by `2^(e - 152)`, and the sign is a factor. -/
theorem fpDecode_of_exponent_ne_zero {w : Wire} (h : w.exponent ≠ 0) :
    fpDecode w = (if w.mantissaHigh.getLsbD 7 then -1 else 1) * (w.mantissa : ℚ) *
      2 ^ ((w.exponent.toNat : ℤ) - 152) := by
  have hscale : (2 : ℚ) ^ ((Config.mantBits : ℤ) - ((w.exponent.toNat : ℤ) - Config.expBias)) =
      (2 ^ ((w.exponent.toNat : ℤ) - 152))⁻¹ := by
    rw [← zpow_neg]
    congr 1
    simp only [Config.mantBits, Config.expBias]
    omega
  rw [fpDecode, if_neg (mt (wire_isZero_iff w).mp h)]
  simp only [signBit_eq_one_iff, hscale, div_inv_eq_mul, Wire.mantissa, mantissa]
  split
  · ring
  · ring

theorem fpDecode_ne_zero {w : Wire} (h : w.exponent ≠ 0) : fpDecode w ≠ 0 := by
  have hmant : (w.mantissa : ℚ) ≠ 0 := by
    have hrange := (mantissa_range w.mantissaHigh w.mantissaMid w.mantissaLow).1
    have hpos : w.mantissa ≠ 0 := by rw [Wire.mantissa]; omega
    exact_mod_cast hpos
  have hsign : (if w.mantissaHigh.getLsbD 7 then -1 else 1 : ℚ) ≠ 0 := by
    split <;> norm_num
  rw [fpDecode_of_exponent_ne_zero h]
  exact mul_ne_zero (mul_ne_zero hsign hmant) (zpow_ne_zero _ two_ne_zero)

/-- Settles O26: the mantissa of the closed form is the reconstructed one, which is at least `2^23`. -/
theorem decodeDeliversValue : Obligations.DecodeDeliversValue := by
  intro s
  refine ⟨fun h => ?_, fun h => ⟨fpDecode s.decIn, exec_decode s, fpDecode_ne_zero h, ?_⟩⟩
  · rw [exec_decode, fpDecode_of_exponent_zero h]
  · rw [fpDecode_of_exponent_ne_zero h, Wire.mantissa, mantissa_eq_two_pow_add]

/-! #### The encoder's domain (40_codec.md R64, R65) -/

@[simp] theorem toQ_negZero : Native.toQ .negZero = some 0 := rfl

@[simp] theorem toQ_infinite (negative : Bool) : Native.toQ (.infinite negative) = none := rfl

@[simp] theorem toQ_nan : Native.toQ .nan = none := rfl

theorem exec_encode_zero {s : State} (h : s.encValue.toQ = some 0) :
    exec .encode s = .next (s.deliver (.enc (.ok Wire.zero))) := by
  rw [exec_encode_of_toQ s 0 h, fpEncode_zero]

/-- Settles O22: what ENCODE does is decided by `toQ` of the value presented. -/
theorem encodeDomain : Obligations.EncodeDomain := by
  refine fun s => ⟨fun h => ?_, fun negative h => ?_, fun h => ?_⟩
  · rw [exec_encode_of_none s (by rw [h, toQ_nan]), h]
  · rw [exec_encode_of_none s (by rw [h, toQ_infinite]), h]
  · obtain h | h := h
    · exact exec_encode_zero (by rw [h, toQ_negZero])
    · exact exec_encode_zero (by rw [h, toQ_finite])

end Sys2Proof.Machine

/-! ### The shifter, byte by byte and position by position (41_shifter.md R73, R74, R77, R78) -/

namespace Sys2Proof.Machine

@[simp] theorem byteAt_cons_zero (b : Byte) (s : ByteSeq) : byteAt (b :: s) 0 = b := rfl

@[simp] theorem byteAt_cons_succ (b : Byte) (s : ByteSeq) (i : Nat) : byteAt (b :: s) (i + 1) = byteAt s i := rfl

/-! #### SHR1 -/

/-- The carry handed on, as R73 writes it: `s[i] & 1`. -/
theorem shiftedOut_setWidth (b : Byte) : (shiftedOut b).setWidth 8 = b &&& 1 := by
  apply BitVec.eq_of_toNat_eq
  rw [BitVec.toNat_setWidth_of_le (by decide), shiftedOut_toNat, BitVec.toNat_and]
  exact (Nat.and_one_is_mod b.toNat).symm

theorem byteAt_shr1Loop_zero (cin : BitVec 1) (s : ByteSeq) (h : 0 < s.length) :
    byteAt (shr1Loop cin s) 0 = (byteAt s 0 >>> 1) ||| (cin.setWidth 8 <<< 7) := by
  cases s with
  | nil => exact absurd h (Nat.lt_irrefl 0)
  | cons b rest => rfl

/-- The incoming carry reaches the first byte only; a later byte's top bit is the low bit of the byte before it. -/
theorem byteAt_shr1Loop_succ (cin : BitVec 1) (s : ByteSeq) (i : Nat) (h : i + 1 < s.length) :
    byteAt (shr1Loop cin s) (i + 1) = (byteAt s (i + 1) >>> 1) ||| ((byteAt s i &&& 1) <<< 7) := by
  induction s generalizing cin i with
  | nil => exact absurd h (Nat.not_lt_zero _)
  | cons b rest ih =>
    have hi : i < rest.length := by simpa using h
    rw [shr1Loop, byteAt_cons_succ, byteAt_cons_succ]
    cases i with
    | zero => rw [byteAt_shr1Loop_zero _ rest hi, byteAt_cons_zero, shiftedOut_setWidth]
    | succ j => rw [ih _ j hi, byteAt_cons_succ]

theorem byteAt_shr1 (s : ByteSeq) (i : Nat) (h : i < s.length) :
    byteAt (shr1 s) i =
      (byteAt s i >>> 1) ||| (if i = 0 then (0 : Byte) else (byteAt s (i - 1) &&& 1) <<< 7) := by
  cases i with
  | zero => exact byteAt_shr1Loop_zero 0 s h
  | succ j => exact byteAt_shr1Loop_succ 0 s j h

/-- Settles O31: what SHR1 delivers is `shr1` of the sequence, whose length, integer and bytes are known. -/
theorem shr1ShiftsThroughBytes : Obligations.Shr1ShiftsThroughBytes := fun s =>
  ⟨shr1 s.shDin, exec_shr1 s, shr1_length s.shDin, be_shr1 s.shDin, byteAt_shr1 s.shDin⟩

/-! #### SHR -/

theorem shr_eq_iterate_shr1 (s : ByteSeq) (n : Nat) : shr s n = shr1^[n] s := by
  induction n generalizing s with
  | zero => rfl
  | succ n ih => rw [shr, ih, Function.iterate_succ_apply]

/-- Once the integer is shifted out, only zero bytes are left. -/
theorem shr_eq_zeros_of_be_lt {s : ByteSeq} {n : Nat} (h : be s < 2 ^ n) : shr s n = List.replicate s.length 0 := by
  apply eq_of_be_eq
  · rw [shr_length, List.length_replicate]
  · rw [be_shr, be_replicate_zero, Nat.div_eq_of_lt h]

theorem be_lt_two_pow_of_width_le {s : ByteSeq} {n : Nat} (h : 8 * s.length ≤ n) : be s < 2 ^ n :=
  calc be s < 256 ^ s.length := be_lt s
    _ = 2 ^ (8 * s.length) := (pow_mul 2 8 s.length).symm
    _ ≤ 2 ^ n := Nat.pow_le_pow_right (by decide) h

/-- Settles O33: SHR's recursion is the iterate of SHR1; past the bit width the whole integer is shifted out. -/
theorem shrAppliesShr1PositionsTimes : Obligations.ShrAppliesShr1PositionsTimes := by
  refine fun s => ⟨?_, fun h => ?_, fun h => ?_⟩
  · rw [exec_shr, shr_eq_iterate_shr1]
  · rw [exec_shr, h, shr]
  · rw [exec_shr, shr_eq_zeros_of_be_lt (be_lt_two_pow_of_width_le h)]

end Sys2Proof.Machine

/-! ### The adder: its order of operands, its zero tests, its error, its crossed lanes (42_adder.md R84, R85, R96, R99) -/

namespace Sys2Proof.Machine

/-! #### The order of the operands (42_adder.md R85) -/

/-- Which operand is `smaller` and which `higher`: the two orders of `orderByExponent_cases`, operand by operand. -/
theorem smallerOf_higherOf_cases (a b : Work) :
    (b.exponent.toNat < a.exponent.toNat ∧ smallerOf a b = b ∧ higherOf a b = a) ∨
    (a.exponent.toNat ≤ b.exponent.toNat ∧ smallerOf a b = a ∧ higherOf a b = b) := by
  obtain ⟨hlt, hord⟩ | ⟨hle, hord⟩ := orderByExponent_cases a b
  · exact .inl ⟨hlt, congrArg Prod.fst hord, congrArg Prod.snd hord⟩
  · exact .inr ⟨hle, congrArg Prod.fst hord, congrArg Prod.snd hord⟩

theorem smallerOf_exponent_le_higherOf (a b : Work) :
    (smallerOf a b).exponent.toNat ≤ (higherOf a b).exponent.toNat := by
  obtain ⟨hlt, hs, hh⟩ | ⟨hle, hs, hh⟩ := smallerOf_higherOf_cases a b
  · rw [hs, hh]; exact hlt.le
  · rw [hs, hh]; exact hle

theorem smallerOf_exponent_ne_zero {a b : Work} (ha : a.exponent ≠ 0) (hb : b.exponent ≠ 0) :
    (smallerOf a b).exponent ≠ 0 := by
  obtain ⟨-, hs, -⟩ | ⟨-, hs, -⟩ := smallerOf_higherOf_cases a b
  · rw [hs]; exact hb
  · rw [hs]; exact ha

theorem expDiffOf_eq_sub (a b : Work) :
    expDiffOf a b = (higherOf a b).exponent.toNat - (smallerOf a b).exponent.toNat := rfl

/-- Two exponent bytes from 1 to 255 are at most 254 apart. -/
theorem expDiffOf_le (a b : Work) (ha : a.exponent ≠ 0) (hb : b.exponent ≠ 0) : expDiffOf a b ≤ 254 := by
  have hhigher := (higherOf a b).exponent.isLt
  have hsmaller : (smallerOf a b).exponent.toNat ≠ 0 :=
    fun h => smallerOf_exponent_ne_zero ha hb (BitVec.eq_of_toNat_eq h)
  rw [expDiffOf_eq_sub]
  omega

/-- Settles O38: the two orders exclude each other, and in both the subtraction of `exp_diff` does not run below 0. -/
theorem addOrdersByExponentByte : Obligations.AddOrdersByExponentByte := by
  intro a b
  have hdiff : ((expDiffOf a b : ℕ) : ℤ) = (higherOf a b).exponent.toNat - (smallerOf a b).exponent.toNat := by
    rw [expDiffOf_eq_sub, Nat.cast_sub (smallerOf_exponent_le_higherOf a b)]
  obtain ⟨hlt, hord⟩ | ⟨hle, hord⟩ := smallerOf_higherOf_cases a b
  · exact ⟨fun _ => hord, fun h => absurd hlt h.not_gt, hdiff, expDiffOf_le a b⟩
  · exact ⟨fun h => absurd hle h.not_ge, fun _ => hord, hdiff, expDiffOf_le a b⟩

/-! #### The zero tests (42_adder.md R84) -/

/-- Settles O37: ADD delivers `fpAdd` of its operands, which tests `b` first. -/
theorem addPassesOverZero : Obligations.AddPassesOverZero := by
  refine fun s => ⟨fun hb => ?_, fun hb ha => ?_⟩
  · rw [exec_add, fpAdd_of_right_zero s.addA s.addB hb]
  · rw [exec_add, fpAdd_of_left_zero s.addA s.addB hb ha]

/-! #### The adder's error (42_adder.md R96, 60_exceptions.md R103) -/

/-- R96's condition: neither operand is zero, and the renormalising step would take the exponent from 255 to 256. -/
def AddPast255 (a b : Work) : Prop :=
  a.exponent ≠ 0 ∧ b.exponent ≠ 0 ∧ (higherOf a b).exponent.toNat = 255 ∧ carry1Of a b = 1

theorem addNonzero_eq_assembleSum (a b : Work) :
    addNonzero a b = assembleSum (higherOf a b).exponent (sumsOf a b) := rfl

theorem carry1Of_eq_one {a b : Work} (h : 255 < (sumsOf a b).byte1Sum) : carry1Of a b = 1 := if_pos h

theorem carry1Of_eq_zero {a b : Work} (h : (sumsOf a b).byte1Sum ≤ 255) : carry1Of a b = 0 := if_neg h.not_gt

/-- The sum path raises, with `higher`'s exponent byte 255 and a carry, or delivers the exponent plus the carry. -/
theorem addNonzero_cases (a b : Work) :
    ((higherOf a b).exponent.toNat = 255 ∧ carry1Of a b = 1 ∧ addNonzero a b = .error .addExp) ∨
    (¬ ((higherOf a b).exponent.toNat = 255 ∧ carry1Of a b = 1) ∧
      ∃ k : Work, addNonzero a b = .ok k ∧ k.exponent.toNat = (higherOf a b).exponent.toNat + carry1Of a b) := by
  rw [addNonzero_eq_assembleSum]
  obtain ⟨hsum, hres⟩ | ⟨hsum, he, hres⟩ | ⟨hsum, he, hres⟩ :=
    assembleSum_cases (higherOf a b).exponent (sumsOf a b)
  · have hcarry := carry1Of_eq_zero hsum
    refine .inr ⟨fun ⟨_, h1⟩ => by omega, _, hres, ?_⟩
    rw [hcarry, Nat.add_zero]
  · exact .inl ⟨he, carry1Of_eq_one hsum, hres⟩
  · refine .inr ⟨fun ⟨h255, _⟩ => by omega, _, hres, ?_⟩
    rw [carry1Of_eq_one hsum, BitVec.toNat_ofNat, Nat.mod_eq_of_lt (by omega)]

/-- ADD raises, on R96's condition, or delivers a record; the zero paths are of the second kind. -/
theorem fpAdd_raises_or_delivers (a b : Work) :
    (AddPast255 a b ∧ fpAdd a b = .error .addExp) ∨
    (¬ AddPast255 a b ∧ ∃ k : Work, fpAdd a b = .ok k ∧
      (a.exponent ≠ 0 → b.exponent ≠ 0 → k.exponent.toNat = (higherOf a b).exponent.toNat + carry1Of a b)) := by
  obtain ⟨hb, hsum⟩ | ⟨-, ha, hsum⟩ | ⟨hb, ha, hsum⟩ := fpAdd_cases a b
  · exact .inr ⟨fun ⟨_, hb', _⟩ => hb' hb, a, hsum, fun _ hb' => absurd hb hb'⟩
  · exact .inr ⟨fun ⟨ha', _⟩ => ha' ha, b, hsum, fun ha' => absurd ha ha'⟩
  · rw [hsum]
    obtain ⟨he, hcarry, herr⟩ | ⟨hin, k, hok, hexp⟩ := addNonzero_cases a b
    · exact .inl ⟨⟨ha, hb, he, hcarry⟩, herr⟩
    · exact .inr ⟨fun ⟨_, _, hpast⟩ => hin hpast, k, hok, fun _ _ => hexp⟩

/-- Only ADD uses the adder's block (30_encoding.md R52). -/
theorem block_eq_fpAdder_iff (i : Instr) : i.block = .fpAdderEncodedDomain ↔ i = .add := by
  cases i <;> decide

/-- A reply of the adder came from an invocation of ADD. -/
theorem eq_add_of_delivered_sum {i : Instr} {s t : State} {r : Except RangeError Work} (h : exec i s = .next t)
    (hr : t.delivered = .sum r) : i = .add := by
  obtain ⟨r', hown, rfl⟩ := exec_next_delivers_own_block h
  rw [deliver_delivered] at hr
  subst hr
  exact (block_eq_fpAdder_iff i).mp hown

/-- The encoder's only error is its own (60_exceptions.md R102). -/
theorem fpEncode_error_eq_encExp {v : ℚ} {e : RangeError} (h : fpEncode v = .error e) : e = .encExp := by
  obtain ⟨-, herr⟩ | ⟨-, w, hok, -⟩ := fpEncode_cases v
  · rw [herr] at h; cases h; rfl
  · rw [hok] at h; cases h

/-- ENCODE goes on only from a value its format reads, and then delivers that value's encoding. -/
theorem exec_encode_next_delivers_fpEncode {s t : State} (h : exec .encode s = .next t) :
    ∃ q : ℚ, t.delivered = .enc (fpEncode q) := by
  cases hq : s.encValue.toQ with
  | none => rw [exec_encode_of_none s hq] at h; cases h
  | some q => exact ⟨q, exec_encode_next_delivered hq h⟩

/-- Settles O46: ADD raises on exactly one of its two ways, and `range_err` shows which; a reply names the block it came
from, and ENCODE's only error is ENC_EXP. -/
theorem addRaisesExactlyPast255 : Obligations.AddRaisesExactlyPast255 := by
  refine ⟨fun s => ?_, fun i s t h ht => eq_add_of_delivered_sum h ht, fun s t h ht => ?_⟩
  · rw [addRangeErr_eq, addSum_eq, exec_add]
    obtain ⟨hpast, herr⟩ | ⟨hin, k, hok, hexp⟩ := fpAdd_raises_or_delivers s.addA s.addB
    · rw [herr, rangeErr_error]
      exact ⟨iff_of_true rfl hpast, fun _ => rfl, fun hne => absurd rfl hne⟩
    · rw [hok, rangeErr_ok]
      have hne : (0 : BitVec 1) ≠ 1 := by decide
      exact ⟨iff_of_false hne hin, fun h1 => absurd h1 hne, fun _ => ⟨k, rfl, hexp⟩⟩
  · obtain ⟨q, hq⟩ := exec_encode_next_delivers_fpEncode h
    rw [hq] at ht
    cases fpEncode_error_eq_encExp (Reply.enc.inj ht)

/-! #### The crossed lanes (42_adder.md R99) -/

theorem addWire_eq_map_rev (x y : Wire) : addWire x y = (fpAdd x.rev y.rev).map Work.rev := by
  rw [addWire]
  cases fpAdd x.rev y.rev <;> rfl

theorem sumWire_eq_map_rev (s : State) : s.sumWire = s.addSum.map Work.rev := by
  rw [State.sumWire]
  cases s.addSum <;> rfl

/-- Crossing the lanes of all three ports of the adder makes it ADDW. -/
theorem sumWire_presentWireOperands (s : State) (x y : Wire) : (s.presentWireOperands x y).sumWire = addWire x y := by
  rw [sumWire_eq_map_rev, addSum_eq, presentWireOperands_addA, presentWireOperands_addB, addWire_eq_map_rev]

theorem addWire_of_ok {x y : Wire} {k : Work} (h : fpAdd x.rev y.rev = .ok k) : addWire x y = .ok k.rev := by
  rw [addWire_eq_map_rev, h, Except.map]

theorem addWire_of_error {x y : Wire} {e : RangeError} (h : fpAdd x.rev y.rev = .error e) : addWire x y = .error e := by
  rw [addWire_eq_map_rev, h, Except.map]

theorem addWire_eq_error_iff (x y : Wire) (e : RangeError) : addWire x y = .error e ↔ fpAdd x.rev y.rev = .error e := by
  refine ⟨fun h => ?_, addWire_of_error⟩
  cases hadd : fpAdd x.rev y.rev with
  | ok k => rw [addWire_of_ok hadd] at h; cases h
  | error e' => rw [addWire_of_error hadd] at h; cases h; rfl

/-- Settles O48: ADD delivers `fpAdd` of the reversed records, and a delivery leaves the output port as it is; on
unreversed bytes ADD answers as on any operands. -/
theorem addWireIsAddWithCrossedLanes : Obligations.AddWireIsAddWithCrossedLanes := by
  intro s x y
  refine ⟨_, exec_add _, deliver_delivered _ _, ?_, addWire_eq_error_iff x y, fun k => addWire_of_ok,
    ⟨_, exec_add _⟩, rfl⟩
  rw [deliver_sumWire, sumWire_presentWireOperands]

end Sys2Proof.Machine

/-! ### ENCODE's closed form, and the codec's round trips (40_codec.md R62, R63, R69 to R71) -/

namespace Sys2Proof.Machine

/-! #### A record is its sign bit, its reconstructed mantissa and its exponent byte (30_encoding.md R43 to R47) -/

theorem wire_mantissa_range (w : Wire) : 2 ^ 23 ≤ w.mantissa ∧ w.mantissa < 2 ^ 24 := by
  obtain ⟨hlo, hhi⟩ := mantissa_range w.mantissaHigh w.mantissaMid w.mantissaLow
  rw [Wire.mantissa]
  omega

theorem wire_eq_of_fields {w w' : Wire} (hsign : signBit w.mantissaHigh = signBit w'.mantissaHigh)
    (hmant : w.mantissa = w'.mantissa) (hexp : w.exponent = w'.exponent) : w = w' := by
  obtain ⟨low, mid, high, e⟩ := w
  obtain ⟨low', mid', high', e'⟩ := w'
  have hbit : high.toNat / 128 = high'.toNat / 128 := by
    rw [← signBit_toNat, ← signBit_toNat, hsign]
  simp only [Wire.mantissa, mantissa_eq] at hmant
  have hmid := mid.isLt
  have hmid' := mid'.isLt
  have hlow := low.isLt
  have hlow' := low'.isLt
  rw [Wire.mk.injEq]
  exact ⟨BitVec.eq_of_toNat_eq (by omega), BitVec.eq_of_toNat_eq (by omega), BitVec.eq_of_toNat_eq (by omega), hexp⟩

theorem neg_one_pow_signBit (b : Byte) : (-1 : ℚ) ^ (signBit b).toNat = if signBit b = 1 then -1 else 1 := by
  by_cases h : signBit b = 1
  · rw [if_pos h, h]
    exact pow_one (-1)
  · have h0 : signBit b = 0 := by revert h; generalize signBit b = x; revert x; decide
    rw [if_neg h, h0]
    exact pow_zero (-1)

theorem wire_val_of_exponent_zero {w : Wire} (h : w.exponent = 0) : w.val = 0 := by
  rw [Wire.val, if_pos ((wire_isZero_iff w).mpr h)]

theorem wire_val_of_exponent_ne_zero {w : Wire} (h : w.exponent ≠ 0) :
    w.val = (if signBit w.mantissaHigh = 1 then -1 else 1) * (w.mantissa : ℚ) * 2 ^ ((w.exponent.toNat : ℤ) - 152) := by
  rw [Wire.val, if_neg (mt (wire_isZero_iff w).mp h), neg_one_pow_signBit, sub_sub]
  rfl

/-- DECODE computes `val` of R47 (40_codec.md R68). -/
theorem fpDecode_eq_val (w : Wire) : fpDecode w = w.val := by
  by_cases h : w.exponent = 0
  · rw [fpDecode_of_exponent_zero h, wire_val_of_exponent_zero h]
  · simp only [fpDecode_of_exponent_ne_zero h, wire_val_of_exponent_ne_zero h, signBit_eq_one_iff]

theorem exec_decode_val (s : State) : exec .decode s = .next (s.deliver (.value (.finite s.decIn.val))) := by
  rw [exec_decode, fpDecode_eq_val]

theorem wire_val_ne_zero {w : Wire} (h : w.exponent ≠ 0) : w.val ≠ 0 := by
  rw [← fpDecode_eq_val]
  exact fpDecode_ne_zero h

theorem wire_abs_val {w : Wire} (h : w.exponent ≠ 0) :
    |w.val| = (w.mantissa : ℚ) * 2 ^ ((w.exponent.toNat : ℤ) - 152) := by
  have hsign : |(if signBit w.mantissaHigh = 1 then -1 else 1 : ℚ)| = 1 := by
    split <;> simp
  have hscale : (0 : ℚ) < 2 ^ ((w.exponent.toNat : ℤ) - 152) := by positivity
  rw [wire_val_of_exponent_ne_zero h, abs_mul, abs_mul, hsign, one_mul, Nat.abs_cast, abs_of_pos hscale]

theorem wire_val_neg_iff {w : Wire} (h : w.exponent ≠ 0) : w.val < 0 ↔ signBit w.mantissaHigh = 1 := by
  have habs : 0 < (w.mantissa : ℚ) * 2 ^ ((w.exponent.toNat : ℤ) - 152) := by
    rw [← wire_abs_val h]
    exact abs_pos.mpr (wire_val_ne_zero h)
  rw [wire_val_of_exponent_ne_zero h, mul_assoc]
  split <;> rename_i hsign
  · exact iff_of_true (by linarith) hsign
  · exact iff_of_false (by linarith) hsign

/-! #### The binary scale and the scaled mantissa (40_codec.md R62) -/

theorem binaryScale_ne_zero {q : ℚ} {k : ℤ} (h : BinaryScale q k) : q ≠ 0 := by
  rintro rfl
  have hpos : (0 : ℚ) < 2 ^ (k - 1) := by positivity
  exact absurd h.1 (by rw [abs_zero]; exact not_le.mpr hpos)

theorem binaryScale_unique {q : ℚ} {k k' : ℤ} (h : BinaryScale q k) (h' : BinaryScale q k') : k = k' :=
  le_antisymm ((abs_lt_two_zpow_iff_scale_le h k').mp h'.2) ((abs_lt_two_zpow_iff_scale_le h' k).mp h.2)

theorem binaryScale_eq_counter {q : ℚ} {k : ℤ} (h : BinaryScale q k) : k = (normalise q).2 :=
  binaryScale_unique h (binaryScale_normalise q (binaryScale_ne_zero h))

/-- Scaling a magnitude of scale `k` by `2^(n - k)` brings it into `[2^(n-1), 2^n)`. -/
theorem binaryScale_iff_scaled (q : ℚ) (k n : ℤ) :
    BinaryScale q k ↔ 2 ^ (n - 1) ≤ |q| * 2 ^ (n - k) ∧ |q| * 2 ^ (n - k) < 2 ^ n := by
  have hpos : (0 : ℚ) < 2 ^ (n - k) := by positivity
  have hlo : (2 : ℚ) ^ (n - 1) = 2 ^ (k - 1) * 2 ^ (n - k) := by
    rw [← zpow_add₀ two_ne_zero]; congr 1; ring
  have hhi : (2 : ℚ) ^ n = 2 ^ k * 2 ^ (n - k) := by
    rw [← zpow_add₀ two_ne_zero]; congr 1; ring
  rw [BinaryScale, hlo, hhi, mul_le_mul_iff_of_pos_right hpos, mul_lt_mul_iff_of_pos_right hpos]

theorem scaledMantissa_cast (q : ℚ) (k : ℤ) : (scaledMantissa q k : ℤ) = ⌊|q| * 2 ^ (24 - k)⌋ :=
  Int.toNat_of_nonneg (Int.floor_nonneg.mpr (by positivity))

theorem scaledMantissa_range {q : ℚ} {k : ℤ} (h : BinaryScale q k) :
    2 ^ 23 ≤ scaledMantissa q k ∧ scaledMantissa q k < 2 ^ 24 := by
  obtain ⟨hlo, hhi⟩ := (binaryScale_iff_scaled q k 24).mp h
  have hlo' : (2 ^ 23 : ℤ) ≤ ⌊|q| * 2 ^ (24 - k)⌋ := Int.le_floor.mpr (by push_cast; exact hlo)
  have hhi' : ⌊|q| * 2 ^ (24 - k)⌋ < (2 ^ 24 : ℤ) := Int.floor_lt.mpr (by push_cast; exact hhi)
  rw [← scaledMantissa_cast] at hlo' hhi'
  omega

/-! #### The fields of the closed form's record -/

/-- On seven magnitude bits, R62's `| (sign << 7)` is R60's packing. -/
theorem or_sign_eq_packSign (b : Byte) (hb : b.toNat < 128) (p : Prop) [Decidable p] :
    b ||| (if p then 0x80 else 0) = packSign b (if p then 1 else 0) := by
  by_cases hp : p
  · rw [if_pos hp, if_pos hp]; revert b; decide +kernel
  · rw [if_neg hp, if_neg hp]; revert b; decide +kernel

theorem ite_sign_eq_one_iff (p : Prop) [Decidable p] : (if p then 1 else 0 : BitVec 1) = 1 ↔ p := by
  by_cases hp : p
  · rw [if_pos hp]; exact iff_of_true rfl hp
  · rw [if_neg hp]; exact iff_of_false (by decide) hp

theorem slice_22_16_lt (v : Nat) : (BitVec.ofNat 8 (slice v 22 16)).toNat < 128 := by
  rw [BitVec.toNat_ofNat, slice]
  omega

theorem closedRecord_mantissaHigh (q : ℚ) (k : ℤ) : (closedRecord q k).mantissaHigh =
    packSign (BitVec.ofNat 8 (slice (scaledMantissa q k) 22 16)) (if q < 0 then 1 else 0) :=
  or_sign_eq_packSign _ (slice_22_16_lt _) (q < 0)

theorem closedRecord_signBit (q : ℚ) (k : ℤ) :
    signBit (closedRecord q k).mantissaHigh = if q < 0 then 1 else 0 := by
  rw [closedRecord_mantissaHigh, signBit_packSign]

theorem closedRecord_signBit_eq_one_iff (q : ℚ) (k : ℤ) : signBit (closedRecord q k).mantissaHigh = 1 ↔ q < 0 := by
  rw [closedRecord_signBit, ite_sign_eq_one_iff]

/-- The three slices of R62 are the stored bits of a mantissa in range. -/
theorem mantissa_of_slices (b : Byte) (sign : BitVec 1) (m : Nat)
    (hb : b = packSign (BitVec.ofNat 8 (slice m 22 16)) sign) (hlo : 2 ^ 23 ≤ m) (hhi : m < 2 ^ 24) :
    mantissa b (BitVec.ofNat 8 (slice m 15 8)) (BitVec.ofNat 8 (slice m 7 0)) = m := by
  have hsign : sign.toNat < 2 := sign.isLt
  simp only [hb, mantissa_eq, packSign_toNat, BitVec.toNat_ofNat, slice]
  omega

theorem closedRecord_mantissa {q : ℚ} {k : ℤ} (h : BinaryScale q k) :
    (closedRecord q k).mantissa = scaledMantissa q k := by
  obtain ⟨hlo, hhi⟩ := scaledMantissa_range h
  exact mantissa_of_slices _ _ _ (closedRecord_mantissaHigh q k) hlo hhi

theorem closedRecord_exponent (q : ℚ) {k : ℤ} (hlo : -127 ≤ k) (hhi : k ≤ 127) :
    ((closedRecord q k).exponent.toNat : ℤ) = k + 128 := by
  rw [closedRecord, BitVec.toNat_ofInt]
  omega

theorem closedRecord_exponent_ne_zero (q : ℚ) {k : ℤ} (hlo : -127 ≤ k) (hhi : k ≤ 127) :
    (closedRecord q k).exponent ≠ 0 := by
  intro h0
  have hexp := closedRecord_exponent q hlo hhi
  have hbyte : (closedRecord q k).exponent.toNat = 0 := congrArg BitVec.toNat h0
  omega

/-- A record with the sign, the mantissa and the exponent byte of the closed form is its record. -/
theorem eq_closedRecord_of_fields {w : Wire} {q : ℚ} {k : ℤ} (h : BinaryScale q k) (hlo : -127 ≤ k) (hhi : k ≤ 127)
    (hsign : signBit w.mantissaHigh = 1 ↔ q < 0) (hmant : w.mantissa = scaledMantissa q k)
    (hexp : (w.exponent.toNat : ℤ) = k + 128) : w = closedRecord q k := by
  refine wire_eq_of_fields ?_ (hmant.trans (closedRecord_mantissa h).symm) (BitVec.eq_of_toNat_eq ?_)
  · rw [← closedRecord_signBit_eq_one_iff q k] at hsign
    revert hsign
    generalize signBit w.mantissaHigh = x
    generalize signBit (closedRecord q k).mantissaHigh = y
    revert x y
    decide
  · have := closedRecord_exponent q hlo hhi
    omega

/-- The weight of the last mantissa bit of the closed form's record. -/
theorem closedRecord_unit (q : ℚ) {k : ℤ} (hlo : -127 ≤ k) (hhi : k ≤ 127) :
    ((closedRecord q k).exponent.toNat : ℤ) - 152 = k - 24 := by
  rw [closedRecord_exponent q hlo hhi]
  ring

theorem closedRecord_mantissa_cast {q : ℚ} {k : ℤ} (h : BinaryScale q k) :
    ((closedRecord q k).mantissa : ℚ) = (⌊|q| * 2 ^ (24 - k)⌋ : ℚ) := by
  rw [closedRecord_mantissa h, ← scaledMantissa_cast, Int.cast_natCast]

/-- The value of the closed form's record: the truncated magnitude with the operand's sign (40_codec.md R63). -/
theorem closedRecord_val {q : ℚ} {k : ℤ} (h : BinaryScale q k) (hlo : -127 ≤ k) (hhi : k ≤ 127) :
    (closedRecord q k).val = (if q < 0 then -1 else 1) * (⌊|q| * 2 ^ (24 - k)⌋ : ℚ) * 2 ^ (k - 24) := by
  rw [wire_val_of_exponent_ne_zero (closedRecord_exponent_ne_zero q hlo hhi), closedRecord_unit q hlo hhi,
    closedRecord_mantissa_cast h]
  simp only [closedRecord_signBit_eq_one_iff]

theorem abs_closedRecord_val {q : ℚ} {k : ℤ} (h : BinaryScale q k) (hlo : -127 ≤ k) (hhi : k ≤ 127) :
    |(closedRecord q k).val| = (⌊|q| * 2 ^ (24 - k)⌋ : ℚ) * 2 ^ (k - 24) := by
  rw [wire_abs_val (closedRecord_exponent_ne_zero q hlo hhi), closedRecord_unit q hlo hhi, closedRecord_mantissa_cast h]

/-! #### The algorithm computes the closed form -/

/-- Three steps of extraction take the first 24 bits of a fraction (40_codec.md R59). -/
theorem assemble_extractByte (m : ℚ) (h0 : 0 ≤ m) (h1 : m < 1) :
    (assemble (extractByte m).1 (extractByte (extractByte m).2).1
      (extractByte (extractByte (extractByte m).2).2).1 : ℤ) =
      ⌊m * 2 ^ 24⌋ := by
  obtain ⟨-, hm, hlo, hhi⟩ := extractByte_spec m h0 h1
  obtain ⟨-, hmid, hlo', hhi'⟩ := extractByte_spec _ hlo hhi
  obtain ⟨-, hlow, hlo'', hhi''⟩ := extractByte_spec _ hlo' hhi'
  symm
  rw [Int.floor_eq_iff, assemble]
  push_cast
  constructor <;> linarith

theorem counter_scales_magnitude {q : ℚ} (hq : q ≠ 0) :
    (normalise q).1 * 2 ^ 24 = |q| * 2 ^ (24 - (normalise q).2) := by
  obtain ⟨-, -, hmag⟩ := normalise_spec q hq
  rw [hmag, mul_assoc, ← zpow_add₀ two_ne_zero, add_sub_cancel]
  rfl

/-- The high byte of a normalised fraction has its implied bit already. -/
theorem restoreImplied_extractByte {m : ℚ} (hhalf : 1 / 2 ≤ m) (h1 : m < 1) :
    restoreImplied (extractByte m).1 = (extractByte m).1 := by
  obtain ⟨hfloor, -⟩ := extractByte_spec m (by linarith) h1
  have hbit : (128 : ℤ) ≤ ⌊m * 256⌋ := Int.le_floor.mpr (by push_cast; linarith)
  have hbyte := (extractByte m).1.isLt
  apply BitVec.eq_of_toNat_eq
  rw [restoreImplied_toNat]
  omega

theorem fpEncode_eq_closedRecord {q : ℚ} {k : ℤ} (h : BinaryScale q k) (hlo : -127 ≤ k) (hhi : k ≤ 127) :
    fpEncode q = .ok (closedRecord q k) := by
  have hq := binaryScale_ne_zero h
  obtain ⟨hhalf, h1, -⟩ := normalise_spec q hq
  have hk := binaryScale_eq_counter h
  rw [fpEncode_of_counter_in_range q hq (by omega) (by omega)]
  refine congrArg _ (eq_closedRecord_of_fields h hlo hhi ?_ ?_ ?_)
  · rw [signBit_packSign, ite_sign_eq_one_iff]
  · rw [Wire.mantissa, mantissa, restoreImplied_packSign, restoreImplied_extractByte hhalf h1]
    zify
    rw [assemble_extractByte _ (by linarith) h1, counter_scales_magnitude hq, scaledMantissa_cast, hk]
  · rw [BitVec.toNat_ofInt]
    omega

/-- What ENCODE answers for a non-zero operand, by its scale (40_codec.md R62). -/
theorem fpEncode_of_scale {q : ℚ} {k : ℤ} (h : BinaryScale q k) :
    fpEncode q = if k < -127 ∨ 127 < k then .error .encExp else .ok (closedRecord q k) := by
  have hk := binaryScale_eq_counter h
  by_cases hout : k < -127 ∨ 127 < k
  · rw [if_pos hout, fpEncode_of_counter_out_of_range q (binaryScale_ne_zero h) (by omega)]
  · rw [if_neg hout, fpEncode_eq_closedRecord h (by omega) (by omega)]

/-- Settles O20: the counter of the normalisation is the one scale, and the three extracted bytes are the scaled
mantissa. -/
theorem encodeMatchesClosedForm : Obligations.EncodeMatchesClosedForm := by
  refine fun s q hq => ⟨fun h0 => ?_, fun hne => ?_, fun k hk => ?_⟩
  · exact exec_encode_zero (h0 ▸ hq)
  · exact ⟨(normalise q).2, binaryScale_normalise q hne, fun k hk => binaryScale_eq_counter hk⟩
  · obtain ⟨hlo, hhi⟩ := scaledMantissa_range hk
    refine ⟨hlo, by omega, ?_⟩
    rw [exec_encode_of_toQ s q hq, fpEncode_of_scale hk]

theorem scaled_mul_unit (q : ℚ) (k : ℤ) : |q| * 2 ^ (24 - k) * 2 ^ (k - 24) = |q| := by
  rw [mul_assoc, ← zpow_add₀ two_ne_zero, show 24 - k + (k - 24) = 0 by ring, zpow_zero, mul_one]

/-- Settles O24: the record's magnitude is the floor of the scaled magnitude, scaled back. -/
theorem encodeTruncatesTowardZero : Obligations.EncodeTruncatesTowardZero := by
  intro s q k hq hk hlo hhi
  have hunit : (0 : ℚ) < 2 ^ (k - 24) := by positivity
  have hfloor := Int.floor_le (|q| * 2 ^ (24 - k))
  have hceil := Int.lt_floor_add_one (|q| * 2 ^ (24 - k))
  have hmag := scaled_mul_unit q k
  refine ⟨closedRecord q k, ?_, closedRecord_val hk hlo hhi, ?_, ?_⟩
  · rw [exec_encode_of_toQ s q hq, fpEncode_eq_closedRecord hk hlo hhi]
  · rw [abs_closedRecord_val hk hlo hhi]
    nlinarith
  · rw [abs_closedRecord_val hk hlo hhi]
    nlinarith

/-! #### The two signs of one magnitude -/

theorem binaryScale_neg {q : ℚ} {k : ℤ} (h : BinaryScale q k) : BinaryScale (-q) k := by
  rwa [BinaryScale, abs_neg]

theorem scaledMantissa_neg (q : ℚ) (k : ℤ) : scaledMantissa (-q) k = scaledMantissa q k := by
  rw [scaledMantissa, abs_neg, scaledMantissa]

theorem packSign_not (b : Byte) (sign : BitVec 1) : packSign b (~~~sign) = packSign b sign ^^^ 0x80 := by
  revert b sign; decide +kernel

/-- Negation changes nothing of the closed form but the sign bit. -/
theorem closedRecord_neg {q : ℚ} (hq : q ≠ 0) (k : ℤ) : closedRecord (-q) k =
    ⟨(closedRecord q k).mantissaLow, (closedRecord q k).mantissaMid, (closedRecord q k).mantissaHigh ^^^ 0x80,
      (closedRecord q k).exponent⟩ := by
  have hsign : (if -q < 0 then 1 else 0 : BitVec 1) = ~~~(if q < 0 then 1 else 0) := by
    obtain hneg | hpos := hq.lt_or_gt
    · rw [if_neg (by linarith), if_pos hneg]; decide
    · rw [if_pos (by linarith), if_neg (by linarith)]; decide
  have hhigh : (closedRecord (-q) k).mantissaHigh = (closedRecord q k).mantissaHigh ^^^ 0x80 := by
    rw [closedRecord_mantissaHigh, closedRecord_mantissaHigh, hsign, packSign_not, scaledMantissa_neg]
  rw [← hhigh]
  simp only [closedRecord, scaledMantissa_neg]

/-- Settles O25: `q` and `-q` have one scale, which decides the error, and their closed forms differ in the sign bit. -/
theorem encodeNegationFlipsSignBit : Obligations.EncodeNegationFlipsSignBit := by
  rintro s s' t q hq rfl rfl
  have hscale := binaryScale_normalise q hq
  rw [exec_encode_of_toQ _ q (toQ_finite q), exec_encode_of_toQ _ (-q) (toQ_finite (-q)), fpEncode_of_scale hscale,
    fpEncode_of_scale (binaryScale_neg hscale)]
  simp only [next_deliver_inj, Reply.enc.injEq]
  split
  · exact ⟨fun w hw => (nomatch hw), fun _ => rfl⟩
  · refine ⟨fun w hw => ?_, fun hw => nomatch hw⟩
    cases hw
    rw [closedRecord_neg hq]

/-! #### The decoder's range, and the two round trips (30_encoding.md R50, 40_codec.md R69 to R71) -/

theorem exponent_byte_range {b : Byte} (h : b ≠ 0) : 1 ≤ b.toNat ∧ b.toNat ≤ 255 := by
  have hlt := b.isLt
  have hne : b.toNat ≠ 0 := fun h0 => h (BitVec.eq_of_toNat_eq h0)
  omega

theorem wire_abs_val_range {w : Wire} (h : w.exponent ≠ 0) :
    2 ^ (-128 : ℤ) ≤ |w.val| ∧ |w.val| ≤ 2 ^ 127 - 2 ^ 103 := by
  obtain ⟨hmlo, hmhi⟩ := wire_mantissa_range w
  obtain ⟨helo, hehi⟩ := exponent_byte_range h
  have hmlo' : (2 ^ 23 : ℚ) ≤ w.mantissa := by exact_mod_cast hmlo
  have hmhi' : (w.mantissa : ℚ) ≤ 2 ^ 24 - 1 := by
    rw [le_sub_iff_add_le]
    exact_mod_cast hmhi
  have hlow : (2 : ℚ) ^ (-151 : ℤ) ≤ 2 ^ ((w.exponent.toNat : ℤ) - 152) :=
    zpow_le_zpow_right₀ one_le_two (by omega)
  have hhigh : (2 : ℚ) ^ ((w.exponent.toNat : ℤ) - 152) ≤ 2 ^ (103 : ℤ) :=
    zpow_le_zpow_right₀ one_le_two (by omega)
  rw [wire_abs_val h]
  constructor
  · calc (2 : ℚ) ^ (-128 : ℤ) = 2 ^ 23 * 2 ^ (-151 : ℤ) := by norm_num
      _ ≤ w.mantissa * 2 ^ ((w.exponent.toNat : ℤ) - 152) := by gcongr
  · calc (w.mantissa : ℚ) * 2 ^ ((w.exponent.toNat : ℤ) - 152) ≤ (2 ^ 24 - 1) * 2 ^ (103 : ℤ) := by gcongr
      _ = 2 ^ 127 - 2 ^ 103 := by norm_num

/-- Settles O27: DECODE is `val`, whose extremes are at the ends of the exponent byte and of the mantissa. -/
theorem decodeIsValAndItsRange : Obligations.DecodeIsValAndItsRange :=
  fun s => ⟨exec_decode_val s, wire_abs_val_range⟩

theorem wire_abs_val_scaled {w : Wire} (h : w.exponent ≠ 0) :
    |w.val| * 2 ^ (24 - ((w.exponent.toNat : ℤ) - 128)) = w.mantissa := by
  have hexp : (w.exponent.toNat : ℤ) - 152 + (24 - (w.exponent.toNat - 128)) = 0 := by ring
  rw [wire_abs_val h, mul_assoc, ← zpow_add₀ two_ne_zero, hexp, zpow_zero, mul_one]

/-- The exponent byte of a record is its value's scale, biased. -/
theorem binaryScale_wire_val {w : Wire} (h : w.exponent ≠ 0) : BinaryScale w.val ((w.exponent.toNat : ℤ) - 128) := by
  obtain ⟨hlo, hhi⟩ := wire_mantissa_range w
  rw [binaryScale_iff_scaled _ _ 24, wire_abs_val_scaled h]
  exact ⟨by norm_num; exact_mod_cast hlo, by exact_mod_cast hhi⟩

/-- ENCODE of a record's value is the record (40_codec.md R71). -/
theorem fpEncode_wire_val {w : Wire} (h : w.exponent ≠ 0) : fpEncode w.val = .ok w := by
  obtain ⟨helo, hehi⟩ := exponent_byte_range h
  have hscale := binaryScale_wire_val h
  have hlo : -127 ≤ (w.exponent.toNat : ℤ) - 128 := by omega
  have hhi : (w.exponent.toNat : ℤ) - 128 ≤ 127 := by omega
  have hmant : (w.mantissa : ℤ) = scaledMantissa w.val ((w.exponent.toNat : ℤ) - 128) := by
    rw [scaledMantissa_cast, wire_abs_val_scaled h, Int.floor_natCast]
  rw [fpEncode_eq_closedRecord hscale hlo hhi]
  exact congrArg _ (eq_closedRecord_of_fields hscale hlo hhi (wire_val_neg_iff h).symm (by exact_mod_cast hmant)
    (by omega)).symm

theorem fpEncode_wire_val_or_zero (w : Wire) :
    fpEncode w.val = .ok (if w.exponent = 0 then Wire.zero else w) := by
  by_cases h : w.exponent = 0
  · rw [if_pos h, wire_val_of_exponent_zero h, fpEncode_zero]
  · rw [if_neg h, fpEncode_wire_val h]

/-- Settles O29: a record's fields are the sign, the scaled mantissa and the biased scale of its value. -/
theorem encodeAfterDecodeRestoresRecord : Obligations.EncodeAfterDecodeRestoresRecord := by
  refine fun s => ⟨.finite s.decIn.val, exec_decode_val s, fun t ht => ?_⟩
  have htoQ : t.encValue.toQ = some s.decIn.val := by rw [ht, toQ_finite]
  rw [exec_encode_of_toQ t _ htoQ, fpEncode_wire_val_or_zero]

/-- A value is zero exactly if its record's exponent byte is. -/
theorem wire_val_eq_zero_iff (w : Wire) : w.val = 0 ↔ w.exponent = 0 :=
  ⟨fun h => by_contra fun hne => wire_val_ne_zero hne h, wire_val_of_exponent_zero⟩

theorem wire_val_injective_off_zero {w w' : Wire} (h : w.val = w'.val) :
    w = w' ∨ (w.exponent = 0 ∧ w'.exponent = 0) := by
  by_cases hw : w.exponent = 0
  · exact .inr ⟨hw, (wire_val_eq_zero_iff w').mp (h ▸ wire_val_of_exponent_zero hw)⟩
  · have hw' : w'.exponent ≠ 0 := fun h0 => hw ((wire_val_eq_zero_iff w).mp (h.trans (wire_val_of_exponent_zero h0)))
    have henc := fpEncode_wire_val hw
    rw [h, fpEncode_wire_val hw'] at henc
    exact .inl (Except.ok.inj henc).symm

/-- Settles O28: off zero, ENCODE takes the value back to the record. -/
theorem decodeInjectiveOffZero : Obligations.DecodeInjectiveOffZero := by
  intro s s' t t' h h' hdel
  rw [exec_decode_val] at h h'
  cases h
  cases h'
  simp only [deliver_delivered, Reply.value.injEq, Native.finite.injEq] at hdel
  exact wire_val_injective_off_zero hdel

/-- The closed form keeps a value exactly if nothing is truncated. -/
theorem closedRecord_val_eq_iff {q : ℚ} {k : ℤ} (h : BinaryScale q k) (hlo : -127 ≤ k) (hhi : k ≤ 127) :
    (closedRecord q k).val = q ↔ ∃ n : ℤ, |q| * 2 ^ (24 - k) = n := by
  have hunit : (2 : ℚ) ^ (k - 24) ≠ 0 := by positivity
  constructor
  · intro hval
    refine ⟨⌊|q| * 2 ^ (24 - k)⌋, mul_right_cancel₀ hunit ?_⟩
    rw [scaled_mul_unit, ← abs_closedRecord_val h hlo hhi, hval]
  · rintro ⟨n, hn⟩
    have hfloor : (⌊|q| * 2 ^ (24 - k)⌋ : ℚ) * 2 ^ (k - 24) = |q| := by
      rw [hn, Int.floor_intCast, ← hn, scaled_mul_unit]
    rw [closedRecord_val h hlo hhi, mul_assoc, hfloor]
    split <;> rename_i hneg
    · rw [abs_of_neg hneg]; ring
    · rw [abs_of_nonneg (not_lt.mp hneg)]; ring

theorem scale_in_range_iff {q : ℚ} {k : ℤ} (h : BinaryScale q k) :
    (-127 ≤ k ∧ k ≤ 127) ↔ 2 ^ (-128 : ℤ) ≤ |q| ∧ |q| < 2 ^ (127 : ℤ) := by
  rw [← not_lt (b := (2 : ℚ) ^ (-128 : ℤ)), abs_lt_two_zpow_iff_scale_le h, abs_lt_two_zpow_iff_scale_le h]
  omega

/-- ENCODE then `val` gives a value back exactly on the numbers of at most 24 significant bits in range
(40_codec.md R70). -/
theorem fpEncode_val_restores_iff (q : ℚ) : (∃ w : Wire, fpEncode q = .ok w ∧ w.val = q) ↔
    q = 0 ∨ (2 ^ (-128 : ℤ) ≤ |q| ∧ |q| < 2 ^ (127 : ℤ) ∧
      ∀ k : ℤ, BinaryScale q k → ∃ n : ℤ, |q| * 2 ^ (24 - k) = n) := by
  by_cases hq : q = 0
  · subst hq
    exact iff_of_true ⟨Wire.zero, fpEncode_zero, wire_val_of_exponent_zero rfl⟩ (.inl rfl)
  have hscale := binaryScale_normalise q hq
  generalize (normalise q).2 = k at hscale
  constructor
  · rintro ⟨w, henc, hval⟩
    rw [fpEncode_of_scale hscale] at henc
    split at henc
    · cases henc
    · rename_i hin
      have hlo : -127 ≤ k := by omega
      have hhi : k ≤ 127 := by omega
      cases henc
      obtain ⟨hmin, hmax⟩ := (scale_in_range_iff hscale).mp ⟨hlo, hhi⟩
      refine .inr ⟨hmin, hmax, fun k' hk' => ?_⟩
      rw [← binaryScale_unique hscale hk']
      exact (closedRecord_val_eq_iff hscale hlo hhi).mp hval
  · rintro (h0 | ⟨hmin, hmax, hint⟩)
    · exact absurd h0 hq
    · obtain ⟨hlo, hhi⟩ := (scale_in_range_iff hscale).mpr ⟨hmin, hmax⟩
      exact ⟨closedRecord q k, fpEncode_eq_closedRecord hscale hlo hhi,
        (closedRecord_val_eq_iff hscale hlo hhi).mpr (hint k hscale)⟩

/-- Settles O30: presenting the record and decoding it delivers its `val`. -/
theorem decodeAfterEncodeExactly : Obligations.DecodeAfterEncodeExactly := by
  intro s q hq
  rw [← fpEncode_val_restores_iff, exec_encode_of_toQ s q hq]
  simp only [next_deliver_inj, exec_decode_val, presentRecord_decIn, Reply.enc.injEq, Reply.value.injEq,
    Native.finite.injEq]

/-! #### The codec on any native type (40_codec.md R64, R65, R68) -/

theorem decodeNative_eq_ofQ_val {ν : Type} (F : NativeFormat ν) (w : Wire) : decodeNative F w = F.ofQ w.val := by
  rw [decodeNative, fpDecode_eq_val]

theorem invoke_encode_of_toQ {ν : Type} (F : NativeFormat ν) (p : Inputs ν) {q : ℚ} (h : F.toQ p.encValue = some q) :
    invoke F .encode p = some (.enc (fpEncode q)) := by
  rw [invoke, encodeNative_of_toQ F p.encValue q h, Option.map_some]

theorem invoke_encode_of_none {ν : Type} (F : NativeFormat ν) (p : Inputs ν) (h : F.toQ p.encValue = none) :
    invoke F .encode p = none := by
  rw [invoke, encodeNative_of_none F p.encValue h, Option.map_none]

/-- Settles O50: where the format holds `val`, `toQ` after `ofQ` leaves the round trip on rationals. -/
theorem anyNativeFormatOnTheCodec : Obligations.AnyNativeFormatOnTheCodec := by
  refine fun ν F => ⟨fun p q => invoke_encode_of_toQ F p, invoke_encode_of_none F, fun p => ?_, fun hholds p => ?_⟩
  · rw [invoke, decodeNative_eq_ofQ_val]
  · have htoQ : F.toQ (p.valuePort F) = some p.decIn.val := by
      rw [Inputs.valuePort, decodeNative_eq_ofQ_val, hholds]
    rw [invoke_encode_of_toQ F _ htoQ, fpEncode_wire_val_or_zero]

end Sys2Proof.Machine

/-! ### The shifter's closed form (41_shifter.md sections 1 and 2) -/

namespace Sys2Proof.Machine

/-- SHR is fixed by what it does to the integer (41_shifter.md R79). -/
theorem shr_eq_bytesN (s : ByteSeq) (n : Nat) : shr s n = bytesN s.length (be s >>> n) := by
  rw [Nat.shiftRight_eq_div_pow, ← be_shr, ← shr_length s n, bytesN_be]

theorem shr_one (s : ByteSeq) : shr s 1 = shr1 s := rfl

/-- Settles O32: SHR1 is SHR by one position. -/
theorem shr1MatchesClosedForm : Obligations.Shr1MatchesClosedForm := by
  intro s
  rw [exec_shr1, ← shr_one, shr_eq_bytesN]

/-- Settles O34: the loop keeps the length and divides the integer by `2^positions`. -/
theorem shrMatchesClosedForm : Obligations.ShrMatchesClosedForm := by
  intro s
  rw [exec_shr, shr_eq_bytesN]

/-! #### Composition and whole bytes -/

theorem shr_shr (s : ByteSeq) (p q : Nat) : shr (shr s p) q = shr s (p + q) := by
  apply eq_of_be_eq
  · simp only [shr_length]
  · rw [be_shr, be_shr, be_shr, Nat.div_div_eq_div_mul, pow_add]

/-- A byte of a sequence shifted by whole bytes is the slice of the integer `j` bytes higher. -/
theorem byteAt_shr_bytes_toNat (s : ByteSeq) (i j : Nat) (h : i < s.length) :
    (byteAt (shr s (8 * j)) i).toNat = be s / 256 ^ (j + (s.length - 1 - i)) % 256 := by
  have hpow : (2 : Nat) ^ (8 * j) = 256 ^ j := pow_mul 2 8 j
  rw [byteAt_eq_be_slice _ i (by rwa [shr_length]), be_shr, shr_length, hpow, Nat.div_div_eq_div_mul, pow_add]

theorem byteAt_shr_bytes (s : ByteSeq) (i j : Nat) (h : i < s.length) :
    byteAt (shr s (8 * j)) i = if j ≤ i then byteAt s (i - j) else 0 := by
  apply BitVec.eq_of_toNat_eq
  rw [byteAt_shr_bytes_toNat s i j h]
  by_cases hj : j ≤ i
  · have hindex : j + (s.length - 1 - i) = s.length - 1 - (i - j) := by omega
    rw [if_pos hj, byteAt_eq_be_slice s (i - j) (by omega), hindex]
  · have hpast : be s < 256 ^ (j + (s.length - 1 - i)) :=
      (be_lt s).trans_le (Nat.pow_le_pow_right (by decide) (by omega))
    rw [if_neg hj, Nat.div_eq_of_lt hpast]
    rfl

/-- Settles O35: divisions by powers of two compose, and one by `256^j` moves the slices by `j` bytes. -/
theorem shiftsCompose : Obligations.ShiftsCompose :=
  fun s => ⟨shr_shr s, shr_one s, fun i j => byteAt_shr_bytes s i j⟩

/-! #### What is shifted out -/

theorem shr_eq_zeros_iff (s : ByteSeq) (n : Nat) : shr s n = List.replicate s.length 0 ↔ be s < 2 ^ n := by
  refine ⟨fun h => ?_, shr_eq_zeros_of_be_lt⟩
  have hzero : be s / 2 ^ n = 0 := by rw [← be_shr, h, be_replicate_zero]
  exact (Nat.div_eq_zero_iff_lt (by positivity)).mp hzero

/-- Of four bytes shifted by 31 positions the top bit is left, in the last place. -/
theorem shr_four_bytes_31 (b0 b1 b2 b3 : Byte) : shr [b0, b1, b2, b3] 31 = ([0, 0, 0, b0 >>> 7] : ByteSeq) := by
  have h1 := b1.isLt
  have h2 := b2.isLt
  have h3 := b3.isLt
  apply eq_of_be_eq
  · rw [shr_length]; rfl
  · rw [be_shr]
    simp only [be, List.length_cons, List.length_nil, BitVec.toNat_ushiftRight, Nat.shiftRight_eq_div_pow,
      BitVec.ofNat_eq_ofNat, BitVec.toNat_ofNat]
    omega

/-- Settles O36: the quotient by `2^positions` is 0 exactly below the divisor. -/
theorem shrZeroExactlyWhenShiftedOut : Obligations.ShrZeroExactlyWhenShiftedOut := by
  refine ⟨fun s => ⟨_, exec_shr s, shr_eq_zeros_iff _ _⟩, fun s b0 b1 b2 b3 hdin hpos => ?_⟩
  rw [exec_shr, hdin, hpos, shr_four_bytes_31]

end Sys2Proof.Machine

/-! ### The adder's closed form and its laws (42_adder.md sections 3 and 4) -/

namespace Sys2Proof.Machine

/-! #### The integer sum (42_adder.md R92) -/

theorem work_mantissa_range (k : Work) : 2 ^ 23 ≤ k.mantissa ∧ k.mantissa < 2 ^ 24 := wire_mantissa_range k.rev

theorem alignedSum_range (a b : Work) : 2 ^ 23 ≤ alignedSum a b ∧ alignedSum a b ≤ 2 ^ 25 - 2 := by
  obtain ⟨hlo, hhi⟩ := work_mantissa_range (higherOf a b)
  obtain ⟨-, hsmall⟩ := work_mantissa_range (smallerOf a b)
  have hshift := Nat.div_le_self (smallerOf a b).mantissa (2 ^ expDiffOf a b)
  rw [alignedSum]
  exact ⟨hlo.trans (Nat.le_add_right _ _), by omega⟩

/-- The byte-wise ripple of two operands is their integer sum (42_adder.md R87, R88). -/
theorem sumsOf_spec (a b : Work) :
    (sumsOf a b).byte1Sum * 65536 + (sumsOf a b).byte2.toNat * 256 + (sumsOf a b).byte3.toNat = alignedSum a b ∧
      (sumsOf a b).byte1Sum < 512 := by
  obtain ⟨hsum, -, hlt⟩ := sumBytes_spec (higherOf a b) (shr (alignBuffer (smallerOf a b)) (expDiffOf a b))
  rw [assemble_shifted] at hsum
  exact ⟨hsum, hlt⟩

/-- `carry1` is bit 24 of the sum. -/
theorem byte1Sum_gt_255_iff (a b : Work) : 255 < (sumsOf a b).byte1Sum ↔ 2 ^ 24 ≤ alignedSum a b := by
  obtain ⟨hsum, -⟩ := sumsOf_spec a b
  have h2 := (sumsOf a b).byte2.isLt
  have h3 := (sumsOf a b).byte3.isLt
  omega

theorem carry1Of_eq_ite (a b : Work) : carry1Of a b = if 2 ^ 24 ≤ alignedSum a b then 1 else 0 := by
  by_cases h : 2 ^ 24 ≤ alignedSum a b
  · rw [if_pos h, carry1Of_eq_one ((byte1Sum_gt_255_iff a b).mpr h)]
  · rw [if_neg h, carry1Of_eq_zero (not_lt.mp (mt (byte1Sum_gt_255_iff a b).mp h))]

/-! #### The record the closed form delivers -/

/-- The record `closedSum` builds: exponent byte `e`, and the 23 bits `t` with the sign bit left 0 (42_adder.md R92). -/
def sumRecord (e t : Nat) : Work :=
  ⟨BitVec.ofNat 8 e, BitVec.ofNat 8 (slice t 22 16), BitVec.ofNat 8 (slice t 15 8), BitVec.ofNat 8 (slice t 7 0)⟩

/-- `closedSum` without the carry, with the carry past 255, and with it below. -/
theorem closedSum_cases (a b : Work) :
    (alignedSum a b < 2 ^ 24 ∧
      closedSum a b = .ok (sumRecord (higherOf a b).exponent.toNat (alignedSum a b % 2 ^ 23))) ∨
    (2 ^ 24 ≤ alignedSum a b ∧ (higherOf a b).exponent.toNat = 255 ∧ closedSum a b = .error .addExp) ∨
    (2 ^ 24 ≤ alignedSum a b ∧ (higherOf a b).exponent.toNat < 255 ∧
      closedSum a b = .ok (sumRecord ((higherOf a b).exponent.toNat + 1) (alignedSum a b % 2 ^ 23 / 2))) := by
  have hbyte := (higherOf a b).exponent.isLt
  have hslice : slice (alignedSum a b) 22 0 = alignedSum a b % 2 ^ 23 := by rw [slice, pow_zero, Nat.div_one]
  by_cases hcarry : 2 ^ 24 ≤ alignedSum a b
  · by_cases he : (higherOf a b).exponent.toNat = 255
    · refine .inr (.inl ⟨hcarry, he, ?_⟩)
      simp only [closedSum, if_pos hcarry, he, if_true]
    · refine .inr (.inr ⟨hcarry, by omega, ?_⟩)
      simp only [closedSum, if_pos hcarry, if_true, hslice]
      rw [if_neg (by omega)]
      rfl
  · refine .inl ⟨not_le.mp hcarry, ?_⟩
    simp only [closedSum, if_neg hcarry, hslice, Nat.zero_ne_one, if_false]
    rw [if_neg (by omega)]
    rfl

@[simp] theorem sumRecord_rev_signBit (e t : Nat) : signBit (sumRecord e t).rev.mantissaHigh = 0 :=
  (signBit_eq_zero_iff _).mpr (slice_22_16_lt t)

theorem sumRecord_exponent_toNat {e : Nat} (t : Nat) (he : e ≤ 255) : (sumRecord e t).exponent.toNat = e := by
  rw [sumRecord, BitVec.toNat_ofNat]
  omega

theorem sumRecord_exponent_ne_zero {e : Nat} (t : Nat) (hlo : 1 ≤ e) (hhi : e ≤ 255) :
    (sumRecord e t).exponent ≠ 0 := by
  intro h0
  have hbyte : (sumRecord e t).exponent.toNat = 0 := congrArg BitVec.toNat h0
  rw [sumRecord_exponent_toNat t hhi] at hbyte
  omega

theorem sumRecord_mantissa (e : Nat) {t : Nat} (ht : t < 2 ^ 23) : (sumRecord e t).mantissa = 2 ^ 23 + t := by
  simp only [Work.mantissa, mantissa_eq, sumRecord, BitVec.toNat_ofNat, slice]
  omega

theorem sumRecord_val {e t : Nat} (hlo : 1 ≤ e) (hhi : e ≤ 255) (ht : t < 2 ^ 23) :
    (sumRecord e t).val = ((2 ^ 23 + t : ℕ) : ℚ) * 2 ^ ((e : ℤ) - 152) := by
  have hexp : (sumRecord e t).rev.exponent.toNat = e := sumRecord_exponent_toNat t hhi
  have hmant : (sumRecord e t).rev.mantissa = 2 ^ 23 + t := sumRecord_mantissa e ht
  have hsign : ¬ signBit (sumRecord e t).rev.mantissaHigh = 1 := by
    rw [sumRecord_rev_signBit]; decide
  rw [Work.val, wire_val_of_exponent_ne_zero (sumRecord_exponent_ne_zero t hlo hhi), if_neg hsign, hexp, hmant, one_mul]

/-! #### The ripple computes the closed form -/

theorem and_7F_eq_mod (n : Nat) : n &&& 0x7F = n % 128 := Nat.and_two_pow_sub_one_eq_mod n 7

theorem renormBuffer_length (sums : SumBytes) : (renormBuffer sums).length = 4 := rfl

theorem be_renormBuffer (sums : SumBytes) : be (renormBuffer sums) =
    (sums.byte1Sum % 128 * 65536 + sums.byte2.toNat * 256 + sums.byte3.toNat) * 256 := by
  simp only [be, renormBuffer, and_7F_eq_mod, BitVec.ofNat_eq_ofNat, BitVec.toNat_ofNat, List.length_cons,
    List.length_nil]
  omega

theorem low_23_bits {high mid low : Nat} (hmid : mid < 256) (hlow : low < 256) :
    (high * 65536 + mid * 256 + low) % 2 ^ 23 = high % 128 * 65536 + mid * 256 + low := by
  omega

/-- The mask leaves the low 23 bits of the sum in the buffer (42_adder.md R89). -/
theorem be_renormBuffer_sumsOf (a b : Work) : be (renormBuffer (sumsOf a b)) = alignedSum a b % 2 ^ 23 * 256 := by
  obtain ⟨hsum, -⟩ := sumsOf_spec a b
  rw [be_renormBuffer, ← hsum, low_23_bits (sumsOf a b).byte2.isLt (sumsOf a b).byte3.isLt]

/-- The first three bytes of the buffer, shifted or not, are the slices of the record built from them. -/
theorem buffer_bytes_eq_slices {s : ByteSeq} (hl : s.length = 4) :
    byteAt s 0 = BitVec.ofNat 8 (be s / 256 ^ 3) ∧ byteAt s 1 = BitVec.ofNat 8 (slice (be s / 256) 15 8) ∧
      byteAt s 2 = BitVec.ofNat 8 (slice (be s / 256) 7 0) := by
  have hbyte : ∀ i, i < 4 → (byteAt s i).toNat = be s / 256 ^ (3 - i) % 256 := fun i hi => by
    rw [byteAt_eq_be_slice s i (by omega), hl]
  refine ⟨BitVec.eq_of_toNat_eq ?_, BitVec.eq_of_toNat_eq ?_, BitVec.eq_of_toNat_eq ?_⟩
  · rw [hbyte 0 (by omega), BitVec.toNat_ofNat]
  · rw [hbyte 1 (by omega), BitVec.toNat_ofNat, slice]
    omega
  · rw [hbyte 2 (by omega), BitVec.toNat_ofNat, slice]
    omega

theorem work_of_buffer_eq_sumRecord {s : ByteSeq} (e : Nat) (hl : s.length = 4) (hlt : be s / 256 < 2 ^ 23) :
    (⟨BitVec.ofNat 8 e, byteAt s 0, byteAt s 1, byteAt s 2⟩ : Work) = sumRecord e (be s / 256) := by
  obtain ⟨h0, h1, h2⟩ := buffer_bytes_eq_slices hl
  have hhigh : be s / 256 ^ 3 = slice (be s / 256) 22 16 := by rw [slice]; omega
  rw [h0, h1, h2, hhigh, sumRecord]

theorem addNonzero_eq_closedSum (a b : Work) : addNonzero a b = closedSum a b := by
  have hbe := be_renormBuffer_sumsOf a b
  have hmod : alignedSum a b % 2 ^ 23 < 2 ^ 23 := Nat.mod_lt _ (by norm_num)
  have hiff := byte1Sum_gt_255_iff a b
  rw [addNonzero_eq_assembleSum]
  obtain ⟨hsum, hres⟩ | ⟨hsum, he, hres⟩ | ⟨hsum, he, hres⟩ :=
    assembleSum_cases (higherOf a b).exponent (sumsOf a b)
  · obtain ⟨-, hclosed⟩ | ⟨hge, -⟩ | ⟨hge, -⟩ := closedSum_cases a b
    · have hquot : be (renormBuffer (sumsOf a b)) / 256 = alignedSum a b % 2 ^ 23 := by omega
      have hrec := work_of_buffer_eq_sumRecord (higherOf a b).exponent.toNat (renormBuffer_length (sumsOf a b))
        (by omega)
      rw [hres, hclosed, ← hquot, ← hrec, BitVec.ofNat_toNat, BitVec.setWidth_eq]
      rfl
    · omega
    · omega
  · obtain ⟨hlt, -⟩ | ⟨-, -, hclosed⟩ | ⟨-, hlt, -⟩ := closedSum_cases a b
    · omega
    · rw [hres, hclosed]
    · omega
  · obtain ⟨hlt, -⟩ | ⟨-, h255, -⟩ | ⟨-, -, hclosed⟩ := closedSum_cases a b
    · omega
    · omega
    · have hquot : be (shr1 (renormBuffer (sumsOf a b))) / 256 = alignedSum a b % 2 ^ 23 / 2 := by
        rw [be_shr1]; omega
      have hrec := work_of_buffer_eq_sumRecord (s := shr1 (renormBuffer (sumsOf a b)))
        ((higherOf a b).exponent.toNat + 1) (by rw [shr1_length, renormBuffer_length]) (by omega)
      rw [hres, hclosed, ← hquot, hrec]

theorem fpAdd_of_nonzero {a b : Work} (ha : a.exponent ≠ 0) (hb : b.exponent ≠ 0) : fpAdd a b = addNonzero a b := by
  obtain ⟨hb', -⟩ | ⟨-, ha', -⟩ | ⟨-, -, hsum⟩ := fpAdd_cases a b
  · exact absurd hb' hb
  · exact absurd ha' ha
  · exact hsum

theorem fpAdd_eq_closedSum {a b : Work} (ha : a.exponent ≠ 0) (hb : b.exponent ≠ 0) : fpAdd a b = closedSum a b := by
  rw [fpAdd_of_nonzero ha hb, addNonzero_eq_closedSum]

/-- Settles O40: the ripple is one integer sum, and the buffer's bytes, shifted on a carry, are the slices of its low 23
bits. -/
theorem addMatchesClosedForm : Obligations.AddMatchesClosedForm := by
  intro s ha hb
  obtain ⟨hlo, hhi⟩ := alignedSum_range s.addA s.addB
  refine ⟨hlo, hhi, ?_⟩
  rw [exec_add, fpAdd_eq_closedSum ha hb]

/-- Settles O49: the unreversed bytes are a working record whose exponent byte is the wire record's `mantissa_low`. -/
theorem addReadsUnreversedBytesAsTheyStand : Obligations.AddReadsUnreversedBytesAsTheyStand := by
  rintro s s' x y a b rfl rfl rfl
  exact ⟨exec_add _, fun hx hy => fpAdd_eq_closedSum hx hy, fun hy => fpAdd_of_right_zero _ _ hy,
    fun hy hx => fpAdd_of_left_zero _ _ hy hx⟩

/-! #### The adder's shifter (41_shifter.md R81, 42_adder.md R86, R89) -/

theorem adderShifter_accepts {s : ByteSeq} {n : Nat} (hl : s.length = 4) (hn : n < 256) :
    Config.adderShifter.accepts s n = true := by
  rw [ShifterBlock.accepts, Bool.and_eq_true, beq_iff_eq, decide_eq_true_eq]
  exact ⟨hl, hn⟩

theorem expDiffOf_lt (a b : Work) : expDiffOf a b < 256 := by
  have hbyte := (higherOf a b).exponent.isLt
  rw [expDiffOf_eq_sub]
  omega

theorem take_three_of_length_four {s : ByteSeq} (hl : s.length = 4) :
    [byteAt s 0, byteAt s 1, byteAt s 2] = s.take 3 := by
  match s, hl with
  | [_, _, _, _], _ => rfl

/-- Settles O39: both buffers have four bytes and the positions are a difference of bytes, or 1; a carry that does not
raise reads the result off the second shift. -/
theorem adderStaysWithinItsShifter : Obligations.AdderStaysWithinItsShifter := by
  refine ⟨rfl, fun a b => ⟨adderShifter_accepts rfl (expDiffOf_lt a b),
    adderShifter_accepts (renormBuffer_length _) (by norm_num), fun ha hb => ?_⟩⟩
  have hsum : fpAdd a b = assembleSum (higherOf a b).exponent (sumsOf a b) := by
    rw [fpAdd_of_nonzero ha hb, addNonzero_eq_assembleSum]
  refine ⟨hsum, fun hcarry hne => ?_⟩
  obtain ⟨hle, -⟩ | ⟨-, h255, -⟩ | ⟨-, -, hres⟩ := assembleSum_cases (higherOf a b).exponent (sumsOf a b)
  · rw [carry1Of_eq_zero hle] at hcarry
    omega
  · exact absurd (BitVec.eq_of_toNat_eq h255) hne
  · refine ⟨_, hsum.trans hres, ?_⟩
    have hlength : (shr1 (renormBuffer (sumsOf a b))).length = 4 := by rw [shr1_length, renormBuffer_length]
    rw [shr_one]
    exact take_three_of_length_four hlength

/-! #### The result's shape (42_adder.md R91, R95, R98, R100) -/

theorem higherOf_exponent_ne_zero {a b : Work} (ha : a.exponent ≠ 0) (hb : b.exponent ≠ 0) :
    (higherOf a b).exponent ≠ 0 := by
  obtain ⟨-, -, hh⟩ | ⟨-, -, hh⟩ := smallerOf_higherOf_cases a b
  · rw [hh]; exact ha
  · rw [hh]; exact hb

/-- Everything ADD can answer for non-zero operands: the error, or a record of the closed form. -/
theorem fpAdd_nonzero_cases {a b : Work} (ha : a.exponent ≠ 0) (hb : b.exponent ≠ 0) :
    fpAdd a b = .error .addExp ∨
    ∃ e t : Nat, (e = (higherOf a b).exponent.toNat ∨ e = (higherOf a b).exponent.toNat + 1) ∧ 1 ≤ e ∧ e ≤ 255 ∧
      t < 2 ^ 23 ∧ fpAdd a b = .ok (sumRecord e t) := by
  obtain ⟨helo, hehi⟩ := exponent_byte_range (higherOf_exponent_ne_zero ha hb)
  have hmod : alignedSum a b % 2 ^ 23 < 2 ^ 23 := Nat.mod_lt _ (by norm_num)
  rw [fpAdd_eq_closedSum ha hb]
  obtain ⟨-, hclosed⟩ | ⟨-, -, hclosed⟩ | ⟨-, he, hclosed⟩ := closedSum_cases a b
  · exact .inr ⟨_, _, .inl rfl, helo, hehi, hmod, hclosed⟩
  · exact .inl hclosed
  · exact .inr ⟨_, _, .inr rfl, by omega, by omega, by omega, hclosed⟩

/-- Settles O44: the records of the closed form have sign bit 0, a non-zero exponent byte and a positive value. -/
theorem addResultShape : Obligations.AddResultShape := by
  intro s t k ha hb h hk
  rw [exec_add_next_delivered h] at hk
  have hsum := Reply.sum.inj hk
  obtain herr | ⟨e, m, he, hlo, hhi, hm, hok⟩ := fpAdd_nonzero_cases ha hb
  · rw [herr] at hsum; cases hsum
  · rw [hok] at hsum
    cases hsum
    refine ⟨sumRecord_rev_signBit e m, sumRecord_exponent_ne_zero m hlo hhi, ?_, ?_⟩
    · rw [sumRecord_val hlo hhi hm]
      positivity
    · rwa [sumRecord_exponent_toNat m hhi]

/-- A record with its own exponent byte and its own low 23 mantissa bits is that record with sign bit 0. -/
theorem sumRecord_eq_clearSign (k : Work) : sumRecord k.exponent.toNat (k.mantissa % 2 ^ 23) = clearSign k := by
  have hmid := k.mantissaMid.isLt
  have hlow := k.mantissaLow.isLt
  rw [sumRecord, clearSign, Work.mk.injEq]
  refine ⟨BitVec.eq_of_toNat_eq ?_, BitVec.eq_of_toNat_eq ?_, BitVec.eq_of_toNat_eq ?_, BitVec.eq_of_toNat_eq ?_⟩
  · rw [BitVec.toNat_ofNat, Nat.mod_eq_of_lt k.exponent.isLt]
  · rw [and_7F_toNat, BitVec.toNat_ofNat, slice, Work.mantissa, mantissa_eq]
    omega
  · rw [BitVec.toNat_ofNat, slice, Work.mantissa, mantissa_eq]
    omega
  · rw [BitVec.toNat_ofNat, slice, Work.mantissa, mantissa_eq]
    omega

/-- From 24 positions on nothing of the smaller mantissa is left. -/
theorem alignedSum_of_far_apart {a b : Work} (h : 24 ≤ expDiffOf a b) : alignedSum a b = (higherOf a b).mantissa := by
  have hlt : (smallerOf a b).mantissa < 2 ^ expDiffOf a b :=
    (work_mantissa_range (smallerOf a b)).2.trans_le (Nat.pow_le_pow_right (by decide) h)
  rw [alignedSum, Nat.div_eq_of_lt hlt, Nat.add_zero]

/-- Settles O45: the sum is `higher`'s own mantissa, and does not carry. -/
theorem addFarApartKeepsHigher : Obligations.AddFarApartKeepsHigher := by
  intro s ha hb hfar
  have hsum := alignedSum_of_far_apart hfar
  have hlt := (work_mantissa_range (higherOf s.addA s.addB)).2
  rw [exec_add, fpAdd_eq_closedSum ha hb]
  obtain ⟨-, hclosed⟩ | ⟨hge, -⟩ | ⟨hge, -⟩ := closedSum_cases s.addA s.addB
  · rw [hclosed, hsum, sumRecord_eq_clearSign]
  · omega
  · omega

/-! #### What the sum does not depend on (42_adder.md R94, R97) -/

/-- The closed form reads the aligned sum and the greater exponent byte only. -/
theorem closedSum_congr {a b a' b' : Work} (hsum : alignedSum a b = alignedSum a' b')
    (hexp : (higherOf a b).exponent = (higherOf a' b').exponent) : closedSum a b = closedSum a' b' := by
  rw [closedSum, closedSum, hsum, hexp]

theorem clearSign_exponent (k : Work) : (clearSign k).exponent = k.exponent := rfl

theorem restoreImplied_and_7F (b : Byte) : restoreImplied (b &&& 0x7F) = restoreImplied b := by
  revert b; decide +kernel

theorem clearSign_mantissa (k : Work) : (clearSign k).mantissa = k.mantissa :=
  congrArg (assemble · k.mantissaMid k.mantissaLow) (restoreImplied_and_7F k.mantissaHigh)

/-- Clearing the signs does not change which operand is which. -/
theorem orderByExponent_clearSign (a b : Work) :
    smallerOf (clearSign a) (clearSign b) = clearSign (smallerOf a b) ∧
      higherOf (clearSign a) (clearSign b) = clearSign (higherOf a b) := by
  rw [smallerOf, higherOf, smallerOf, higherOf, orderByExponent, orderByExponent, clearSign_exponent,
    clearSign_exponent]
  split
  · exact ⟨rfl, rfl⟩
  · exact ⟨rfl, rfl⟩

theorem alignedSum_clearSign (a b : Work) : alignedSum (clearSign a) (clearSign b) = alignedSum a b := by
  obtain ⟨hs, hh⟩ := orderByExponent_clearSign a b
  rw [alignedSum, alignedSum, expDiffOf_eq_sub, expDiffOf_eq_sub, hs, hh, clearSign_mantissa, clearSign_mantissa,
    clearSign_exponent, clearSign_exponent]

theorem fpAdd_clearSign {a b : Work} (ha : a.exponent ≠ 0) (hb : b.exponent ≠ 0) :
    fpAdd (clearSign a) (clearSign b) = fpAdd a b := by
  have hh := (orderByExponent_clearSign a b).2
  rw [fpAdd_eq_closedSum ha hb, fpAdd_eq_closedSum (a := clearSign a) (b := clearSign b) ha hb]
  exact closedSum_congr (alignedSum_clearSign a b) (by rw [hh, clearSign_exponent])

theorem exec_add_presentOperands_delivered {s t : State} {a b : Work}
    (h : exec .add (s.presentOperands a b) = .next t) :
    t.delivered = .sum (fpAdd a b) :=
  exec_add_next_delivered h

/-- Settles O43: the restored implied bit stands where the sign was, so the sum never reads it. -/
theorem addIgnoresSigns : Obligations.AddIgnoresSigns := by
  intro s t u a b ha hb ht hu
  rw [exec_add_presentOperands_delivered ht, exec_add_presentOperands_delivered hu, fpAdd_clearSign ha hb]

/-- Off a tie the order of the operands is the same from both sides. -/
theorem orderByExponent_comm {a b : Work} (h : a.exponent.toNat ≠ b.exponent.toNat) :
    orderByExponent a b = orderByExponent b a := by
  obtain ⟨hlt, hab⟩ | ⟨hle, hab⟩ := orderByExponent_cases a b <;>
    obtain ⟨hlt', hba⟩ | ⟨hle', hba⟩ := orderByExponent_cases b a
  · omega
  · rw [hab, hba]
  · rw [hab, hba]
  · omega

/-- On a tie nothing is shifted, and the sum of the mantissas commutes. -/
theorem alignedSum_of_tie {a b : Work} (h : a.exponent.toNat = b.exponent.toNat) :
    alignedSum a b = a.mantissa + b.mantissa := by
  obtain ⟨hlt, -⟩ | ⟨-, hs, hh⟩ := smallerOf_higherOf_cases a b
  · omega
  · rw [alignedSum, expDiffOf_eq_sub, hs, hh, h, Nat.sub_self, pow_zero, Nat.div_one, Nat.add_comm]

theorem closedSum_comm (a b : Work) : closedSum a b = closedSum b a := by
  by_cases htie : a.exponent.toNat = b.exponent.toNat
  · apply closedSum_congr
    · rw [alignedSum_of_tie htie, alignedSum_of_tie htie.symm, Nat.add_comm]
    · obtain ⟨-, -, hab⟩ | ⟨-, -, hab⟩ := smallerOf_higherOf_cases a b <;>
        obtain ⟨-, -, hba⟩ | ⟨-, -, hba⟩ := smallerOf_higherOf_cases b a <;>
        simp only [hab, hba, BitVec.eq_of_toNat_eq htie]
  · have hord := orderByExponent_comm htie
    apply closedSum_congr
    · simp only [alignedSum, expDiffOf, smallerOf, higherOf, hord]
    · rw [higherOf, hord, higherOf]

theorem fpAdd_comm {a b : Work} (h : a.exponent ≠ 0 ∨ b.exponent ≠ 0) : fpAdd a b = fpAdd b a := by
  by_cases ha : a.exponent = 0
  · have hb := h.resolve_left (not_not_intro ha)
    rw [fpAdd_of_left_zero a b hb ha, fpAdd_of_right_zero b a ha]
  · by_cases hb : b.exponent = 0
    · rw [fpAdd_of_right_zero a b hb, fpAdd_of_left_zero b a ha hb]
    · rw [fpAdd_eq_closedSum ha hb, fpAdd_eq_closedSum hb ha, closedSum_comm]

/-- Settles O47: the order of the operands matters on a tie only, where no mantissa is shifted. -/
theorem addCommutesUnlessBothZero : Obligations.AddCommutesUnlessBothZero := by
  intro s t u a b ht hu
  rw [exec_add_presentOperands_delivered ht, exec_add_presentOperands_delivered hu]
  refine ⟨fun h => by rw [fpAdd_comm h], fun ha hb => ?_⟩
  rw [fpAdd_of_right_zero a b hb, fpAdd_of_right_zero b a ha]
  exact ⟨rfl, rfl⟩

/-! #### The sum of the magnitudes (42_adder.md R93) -/

theorem work_abs_val {k : Work} (h : k.exponent ≠ 0) :
    |k.val| = (k.mantissa : ℚ) * 2 ^ ((k.exponent.toNat : ℤ) - 152) :=
  wire_abs_val (w := k.rev) h

theorem magnitudeSum_eq_ordered (a b : Work) : magnitudeSum a b = |(higherOf a b).val| + |(smallerOf a b).val| := by
  obtain ⟨-, hs, hh⟩ | ⟨-, hs, hh⟩ := smallerOf_higherOf_cases a b
  · rw [magnitudeSum, hs, hh]
  · rw [magnitudeSum, hs, hh, add_comm]

theorem lastBitWeight_pos (a b : Work) : 0 < lastBitWeight a b := by
  rw [lastBitWeight]
  positivity

theorem higherOf_abs_val {a b : Work} (ha : a.exponent ≠ 0) (hb : b.exponent ≠ 0) :
    |(higherOf a b).val| = ((higherOf a b).mantissa : ℚ) * lastBitWeight a b :=
  work_abs_val (higherOf_exponent_ne_zero ha hb)

/-- The smaller operand's last bit weighs `2^d` times less than `higher`'s. -/
theorem smallerOf_abs_val {a b : Work} (ha : a.exponent ≠ 0) (hb : b.exponent ≠ 0) :
    |(smallerOf a b).val| = ((smallerOf a b).mantissa : ℚ) / (2 ^ expDiffOf a b : ℕ) * lastBitWeight a b := by
  have hle := smallerOf_exponent_le_higherOf a b
  have hexp : ((smallerOf a b).exponent.toNat : ℤ) - 152 =
      (higherOf a b).exponent.toNat - 152 - (expDiffOf a b : ℤ) := by
    rw [expDiffOf_eq_sub, Nat.cast_sub hle]
    ring
  rw [work_abs_val (smallerOf_exponent_ne_zero ha hb), hexp, zpow_sub₀ two_ne_zero, zpow_natCast, lastBitWeight]
  push_cast
  ring

theorem magnitudeSum_div_weight {a b : Work} (ha : a.exponent ≠ 0) (hb : b.exponent ≠ 0) :
    magnitudeSum a b / lastBitWeight a b =
      ((higherOf a b).mantissa : ℚ) + ((smallerOf a b).mantissa : ℚ) / (2 ^ expDiffOf a b : ℕ) := by
  rw [magnitudeSum_eq_ordered, higherOf_abs_val ha hb, smallerOf_abs_val ha hb, ← add_mul,
    mul_div_cancel_right₀ _ (lastBitWeight_pos a b).ne']

/-- `S` is the sum of the magnitudes in units of `higher`'s last bit, truncated. -/
theorem alignedSum_eq_floor {a b : Work} (ha : a.exponent ≠ 0) (hb : b.exponent ≠ 0) :
    (alignedSum a b : ℤ) = ⌊magnitudeSum a b / lastBitWeight a b⌋ := by
  rw [magnitudeSum_div_weight ha hb, Int.floor_natCast_add, Rat.floor_natCast_div_natCast, alignedSum]
  push_cast
  rfl

theorem magnitudeSum_nonneg (a b : Work) : 0 ≤ magnitudeSum a b := add_nonneg (abs_nonneg _) (abs_nonneg _)

/-- Scaling by the scale of exponent byte `he` is division by the unit. -/
theorem magnitudeSum_scaled (a b : Work) :
    |magnitudeSum a b| * 2 ^ (24 - (((higherOf a b).exponent.toNat : ℤ) - 128)) =
      magnitudeSum a b / lastBitWeight a b := by
  have hexp : 24 - (((higherOf a b).exponent.toNat : ℤ) - 128) = -((higherOf a b).exponent.toNat - 152) := by ring
  rw [abs_of_nonneg (magnitudeSum_nonneg a b), hexp, zpow_neg, lastBitWeight, div_eq_mul_inv]

/-- Scaling by the next scale halves that, and its floor. -/
theorem floor_magnitudeSum_scaled_next {a b : Work} (ha : a.exponent ≠ 0) (hb : b.exponent ≠ 0) :
    ⌊|magnitudeSum a b| * 2 ^ (24 - (((higherOf a b).exponent.toNat : ℤ) - 127))⌋ = ((alignedSum a b / 2 : ℕ) : ℤ) := by
  have hexp : 24 - (((higherOf a b).exponent.toNat : ℤ) - 127) =
      24 - ((higherOf a b).exponent.toNat - 128) - 1 := by ring
  rw [hexp, zpow_sub_one₀ two_ne_zero, ← mul_assoc, magnitudeSum_scaled, ← div_eq_mul_inv, ← Nat.cast_two (R := ℚ),
    Int.floor_div_natCast, ← alignedSum_eq_floor ha hb]
  push_cast
  rfl

theorem binaryScale_of_floor {q : ℚ} {k : ℤ} {n : Nat} (h : ⌊|q| * 2 ^ (24 - k)⌋ = (n : ℤ)) (hlo : 2 ^ 23 ≤ n)
    (hhi : n < 2 ^ 24) : BinaryScale q k ∧ scaledMantissa q k = n := by
  obtain ⟨hle, hlt⟩ := Int.floor_eq_iff.mp h
  have hlo' : (2 ^ 23 : ℚ) ≤ n := by exact_mod_cast hlo
  have hhi' : (n : ℚ) + 1 ≤ 2 ^ 24 := by exact_mod_cast hhi
  push_cast at hle hlt
  refine ⟨(binaryScale_iff_scaled q k 24).mpr ⟨?_, ?_⟩, ?_⟩
  · rw [show (2 : ℚ) ^ ((24 : ℤ) - 1) = 2 ^ 23 by norm_num]
    linarith
  · rw [show (2 : ℚ) ^ (24 : ℤ) = 2 ^ 24 by norm_num]
    linarith
  · rw [scaledMantissa, h, Int.toNat_natCast]

/-- A record of the closed form with the scale and the truncated mantissa of a magnitude is its encoding. -/
theorem fpEncode_eq_sumRecord {q : ℚ} {e t : Nat} (hq : 0 ≤ q) (hlo : 1 ≤ e) (hhi : e ≤ 255) (ht : t < 2 ^ 23)
    (hfloor : ⌊|q| * 2 ^ (24 - ((e : ℤ) - 128))⌋ = ((2 ^ 23 + t : ℕ) : ℤ)) : fpEncode q = .ok (sumRecord e t).rev := by
  obtain ⟨hscale, hmant⟩ := binaryScale_of_floor hfloor (by omega) (by omega)
  have hexp : (sumRecord e t).rev.exponent.toNat = e := sumRecord_exponent_toNat t hhi
  rw [fpEncode_eq_closedRecord hscale (by omega) (by omega)]
  refine congrArg _ (eq_closedRecord_of_fields hscale (by omega) (by omega) ?_ ?_ ?_).symm
  · rw [sumRecord_rev_signBit]
    exact iff_of_false (by decide) (not_lt.mpr hq)
  · rw [hmant]
    exact sumRecord_mantissa e ht
  · rw [hexp]
    ring

theorem higherOf_mantissa_le_alignedSum (a b : Work) : (higherOf a b).mantissa ≤ alignedSum a b := Nat.le_add_right _ _

/-- Case 1: without a carry the scale of the sum is `higher`'s and its truncated mantissa is `S`. -/
theorem magnitudeSum_without_carry {a b : Work} (ha : a.exponent ≠ 0) (hb : b.exponent ≠ 0)
    (hlt : alignedSum a b < 2 ^ 24) :
    fpEncode (magnitudeSum a b) = .ok (sumRecord (higherOf a b).exponent.toNat (alignedSum a b % 2 ^ 23)).rev ∧
      |(higherOf a b).val| ≤ (sumRecord (higherOf a b).exponent.toNat (alignedSum a b % 2 ^ 23)).val := by
  obtain ⟨helo, hehi⟩ := exponent_byte_range (higherOf_exponent_ne_zero ha hb)
  obtain ⟨hslo, -⟩ := alignedSum_range a b
  have hmod : alignedSum a b % 2 ^ 23 < 2 ^ 23 := Nat.mod_lt _ (by norm_num)
  have hmant : 2 ^ 23 + alignedSum a b % 2 ^ 23 = alignedSum a b := by omega
  have hhigher : ((higherOf a b).mantissa : ℚ) ≤ alignedSum a b := by
    exact_mod_cast higherOf_mantissa_le_alignedSum a b
  constructor
  · apply fpEncode_eq_sumRecord (magnitudeSum_nonneg a b) helo hehi hmod
    rw [magnitudeSum_scaled, ← alignedSum_eq_floor ha hb, hmant]
  · rw [sumRecord_val helo hehi hmod, hmant, higherOf_abs_val ha hb]
    exact mul_le_mul_of_nonneg_right hhigher (lastBitWeight_pos a b).le

/-- The unit of the next exponent byte. -/
theorem zpow_next_exponent (a b : Work) :
    (2 : ℚ) ^ ((((higherOf a b).exponent.toNat + 1 : ℕ) : ℤ) - 152) = 2 * lastBitWeight a b := by
  rw [lastBitWeight, ← zpow_one_add₀ two_ne_zero]
  congr 1
  push_cast
  ring

theorem sumRecord_val_with_carry {a b : Work} (he : (higherOf a b).exponent.toNat < 255) :
    (sumRecord ((higherOf a b).exponent.toNat + 1) (alignedSum a b % 2 ^ 23 / 2)).val =
      ((2 ^ 23 + alignedSum a b % 2 ^ 23 / 2 : ℕ) : ℚ) * (2 * lastBitWeight a b) := by
  have hmod : alignedSum a b % 2 ^ 23 < 2 ^ 23 := Nat.mod_lt _ (by norm_num)
  rw [sumRecord_val (by omega) he (by omega), zpow_next_exponent]

/-- Case 2: with a carry the scale is the next and the mantissa `S / 2`, whose low 23 bits the mask leaves whole below
`3 * 2^23`. -/
theorem magnitudeSum_with_carry {a b : Work} (ha : a.exponent ≠ 0) (hb : b.exponent ≠ 0)
    (he : (higherOf a b).exponent.toNat < 255) (hge : 2 ^ 24 ≤ alignedSum a b) (hlt : alignedSum a b < 3 * 2 ^ 23) :
    fpEncode (magnitudeSum a b) =
        .ok (sumRecord ((higherOf a b).exponent.toNat + 1) (alignedSum a b % 2 ^ 23 / 2)).rev ∧
      |(higherOf a b).val| ≤ (sumRecord ((higherOf a b).exponent.toNat + 1) (alignedSum a b % 2 ^ 23 / 2)).val := by
  have hmod : alignedSum a b % 2 ^ 23 < 2 ^ 23 := Nat.mod_lt _ (by norm_num)
  have hmant : 2 ^ 23 + alignedSum a b % 2 ^ 23 / 2 = alignedSum a b / 2 := by omega
  have hscale : 24 - ((((higherOf a b).exponent.toNat + 1 : ℕ) : ℤ) - 128) =
      24 - ((higherOf a b).exponent.toNat - 127) := by push_cast; ring
  have hhigher : ((higherOf a b).mantissa : ℚ) ≤ (alignedSum a b / 2 : ℕ) * 2 := by
    have hhi := (work_mantissa_range (higherOf a b)).2
    have hle : (higherOf a b).mantissa ≤ alignedSum a b / 2 * 2 := by omega
    exact_mod_cast hle
  constructor
  · apply fpEncode_eq_sumRecord (magnitudeSum_nonneg a b) (by omega) (by omega) (by omega)
    rw [hscale, floor_magnitudeSum_scaled_next ha hb, hmant]
  · rw [sumRecord_val_with_carry he, hmant, higherOf_abs_val ha hb, ← mul_assoc]
    exact mul_le_mul_of_nonneg_right hhigher (lastBitWeight_pos a b).le

/-- With a carry past exponent byte 255 the sum is out of ENCODE's range. -/
theorem magnitudeSum_past_255 {a b : Work} (ha : a.exponent ≠ 0) (hb : b.exponent ≠ 0)
    (he : (higherOf a b).exponent.toNat = 255) (hge : 2 ^ 24 ≤ alignedSum a b) :
    fpEncode (magnitudeSum a b) = .error .encExp := by
  obtain ⟨-, hshi⟩ := alignedSum_range a b
  obtain ⟨hscale, -⟩ := binaryScale_of_floor (floor_magnitudeSum_scaled_next ha hb) (by omega) (by omega)
  rw [fpEncode_of_scale hscale, if_pos (.inr (by omega))]

/-- Settles O41: case by case, the closed form's record has the scale and the truncated mantissa of the sum of the
magnitudes. -/
theorem addIsEncodedMagnitudeSum : Obligations.AddIsEncodedMagnitudeSum := by
  intro s ha hb
  refine ⟨alignedSum_eq_floor ha hb, fun hbound => ?_⟩
  have hbyte := (higherOf s.addA s.addB).exponent.isLt
  rw [carry1Of_eq_ite, exec_add, fpAdd_eq_closedSum ha hb]
  obtain ⟨hlt, hclosed⟩ | ⟨hge, he, hclosed⟩ | ⟨hge, he, hclosed⟩ := closedSum_cases s.addA s.addB
  · rw [if_neg (not_le.mpr hlt), if_neg (by omega), hclosed]
    exact ⟨_, rfl, magnitudeSum_without_carry ha hb hlt⟩
  · rw [if_pos hge, if_pos (by omega), hclosed]
    exact ⟨rfl, magnitudeSum_past_255 ha hb he hge⟩
  · rw [if_pos hge, if_neg (by omega), hclosed]
    exact ⟨_, rfl, magnitudeSum_with_carry ha hb he hge hbound⟩

/-- What the mask loses, `2^22` units of the next exponent. -/
theorem lost_quarter (a b : Work) :
    (2 : ℚ) ^ (((higherOf a b).exponent.toNat : ℤ) - 129) = 2 ^ 22 * (2 * lastBitWeight a b) := by
  rw [lastBitWeight, ← mul_assoc, ← pow_succ, ← zpow_natCast, ← zpow_add₀ two_ne_zero]
  congr 1
  push_cast
  ring

/-- Settles O42: from `3 * 2^23` on the mask drops bit 23 of the sum, which weighs `2^22` after the shift. -/
theorem addLosesQuarterInCaseThree : Obligations.AddLosesQuarterInCaseThree := by
  intro s ha hb hbound he
  obtain ⟨-, hshi⟩ := alignedSum_range s.addA s.addB
  rw [exec_add, fpAdd_eq_closedSum ha hb]
  obtain ⟨hlt, -⟩ | ⟨-, h255, -⟩ | ⟨-, he', hclosed⟩ := closedSum_cases s.addA s.addB
  · omega
  · omega
  · rw [hclosed]
    refine ⟨_, rfl, ?_⟩
    have hmant : 2 ^ 23 + alignedSum s.addA s.addB % 2 ^ 23 / 2 + 2 ^ 22 = alignedSum s.addA s.addB / 2 := by omega
    rw [sumRecord_val_with_carry he', lost_quarter, ← hmant, ← sub_mul]
    push_cast
    ring

end Sys2Proof.Machine

/-! ### The selector and the step (30_encoding.md R53, R54; log entries 2, 3, 6) -/

namespace Sys2Proof.Machine

/-- What the selector decoder answers: the operation whose selector value it is, or the value refused by name. -/
theorem decodeSelector_cases (op : BitVec 3) :
    (op.toNat < 5 ∧ ∃ i, decodeSelector op = .ok i ∧ encodeSelector i = op) ∨
    (5 ≤ op.toNat ∧ decodeSelector op = .error (.reservedSelector op)) := by
  unfold decodeSelector
  split
  case h_1 h => exact .inl ⟨by omega, _, rfl, BitVec.eq_of_toNat_eq h.symm⟩
  case h_2 h => exact .inl ⟨by omega, _, rfl, BitVec.eq_of_toNat_eq h.symm⟩
  case h_3 h => exact .inl ⟨by omega, _, rfl, BitVec.eq_of_toNat_eq h.symm⟩
  case h_4 h => exact .inl ⟨by omega, _, rfl, BitVec.eq_of_toNat_eq h.symm⟩
  case h_5 h => exact .inl ⟨by omega, _, rfl, BitVec.eq_of_toNat_eq h.symm⟩
  case h_6 h0 h1 h2 h3 h4 =>
    have hne : op.toNat ≠ 0 ∧ op.toNat ≠ 1 ∧ op.toNat ≠ 2 ∧ op.toNat ≠ 3 ∧ op.toNat ≠ 4 := ⟨h0, h1, h2, h3, h4⟩
    exact .inr ⟨by omega, rfl⟩

theorem decodeSelector_of_reserved {op : BitVec 3} (h : 5 ≤ op.toNat) :
    decodeSelector op = .error (.reservedSelector op) := by
  obtain ⟨hlt, -⟩ | ⟨-, herr⟩ := decodeSelector_cases op
  · omega
  · exact herr

theorem encodeSelector_of_decodeSelector {op : BitVec 3} {i : Instr} (h : decodeSelector op = .ok i) :
    encodeSelector i = op := by
  obtain ⟨-, j, hj, hop⟩ | ⟨-, herr⟩ := decodeSelector_cases op
  · rw [hj] at h
    cases h
    exact hop
  · rw [herr] at h
    cases h

theorem decodeSelector_encodeSelector (i : Instr) : decodeSelector (encodeSelector i) = .ok i := by
  cases i <;> rfl

theorem step_of_decodeSelector {s : State} {i : Instr} (h : decodeSelector s.op = .ok i) : step s = exec i s := by
  rw [step, h]

theorem step_of_reserved {s : State} (h : 5 ≤ s.op.toNat) : step s = .refused (.reservedSelector s.op) := by
  rw [step, decodeSelector_of_reserved h]

/-- Settles O1: the decoder's two answers; DECODE and ADD go on from every operand. -/
theorem selectorValuesFiveToSevenRefused : Obligations.SelectorValuesFiveToSevenRefused := by
  refine ⟨fun op => decodeSelector_of_reserved, fun op h => ?_, fun s => step_of_reserved,
    fun s w a b => ⟨⟨_, exec_decode _⟩, ⟨_, exec_add _⟩⟩⟩
  obtain ⟨-, i, hi, -⟩ | ⟨hge, -⟩ := decodeSelector_cases op
  · exact ⟨i, hi⟩
  · omega

/-- Settles O2: the encoder's table read backwards is the decoder's. -/
theorem selectorRoundTrip : Obligations.SelectorRoundTrip :=
  ⟨fun i _ => decodeSelector_encodeSelector i, fun _ _ => encodeSelector_of_decodeSelector⟩

/-- Settles O3: eight rows of a finite table, each by evaluation. -/
theorem selectorWordsSelect : Obligations.SelectorWordsSelect :=
  ⟨rfl, rfl, rfl, rfl, rfl, rfl, rfl, rfl⟩

/-- Settles O4: `step` does nothing with the decoded operation but run it. -/
theorem stepRunsSelectedOperation : Obligations.StepRunsSelectedOperation :=
  fun _ _ => step_of_decodeSelector

/-- Only ENCODE has a domain: it goes on from a finite number, the others from anything. -/
theorem exec_completes_iff (i : Instr) (s : State) :
    (∃ t, exec i s = .next t) ↔ (i = .encode → s.encValue.wf = true) := by
  cases i with
  | encode =>
    rw [← toQ_isSome_iff_wf]
    cases hq : s.encValue.toQ with
    | none =>
      rw [exec_encode_of_none s hq]
      exact iff_of_false (fun ⟨t, ht⟩ => nomatch ht) (fun h => nomatch h rfl)
    | some q => exact iff_of_true ⟨_, exec_encode_of_toQ s q hq⟩ (fun _ => rfl)
  | decode => exact iff_of_true ⟨_, exec_decode s⟩ (fun h => nomatch h)
  | shr1 => exact iff_of_true ⟨_, exec_shr1 s⟩ (fun h => nomatch h)
  | shr => exact iff_of_true ⟨_, exec_shr s⟩ (fun h => nomatch h)
  | add => exact iff_of_true ⟨_, exec_add s⟩ (fun h => nomatch h)

theorem encodeSelector_eq_zero_iff (i : Instr) : encodeSelector i = 0 ↔ i = .encode := by
  cases i <;> decide

theorem selectorWf_iff (op : BitVec 3) : selectorWf op = true ↔ op.toNat < 5 := by
  rw [selectorWf, decide_eq_true_eq]

/-- Settles O5: below 5 a step is the selected operation, and selector value 0 is ENCODE's alone. -/
theorem stepCompletesExactlyWhenReady : Obligations.StepCompletesExactlyWhenReady := by
  refine fun s => ⟨?_, fun f => nomatch f⟩
  rw [Ready, selectorWf_iff]
  obtain ⟨hlt, i, hi, hop⟩ | ⟨hge, -⟩ := decodeSelector_cases s.op
  · rw [step_of_decodeSelector hi, exec_completes_iff, ← encodeSelector_eq_zero_iff, hop]
    exact (and_iff_right hlt).symm
  · rw [step_of_reserved hge]
    exact iff_of_false (fun ⟨t, ht⟩ => nomatch ht) (fun ⟨hlt, _⟩ => by omega)

end Sys2Proof.Machine

/-! ### An invocation as a function of the input levels (10_state.md R21, R33; 20_memory.md section 3) -/

namespace Sys2Proof.Machine

/-- What a state does with the answer of `invoke`: it is delivered, or the operand is refused. -/
def answer (s : State) : Option (Reply Native) → Host.Outcome State Fault Refusal
  | some r => .next (s.deliver r)
  | none => .refused (.valueNotFinite s.encValue)

theorem exec_eq_answer (i : Instr) (s : State) : exec i s = answer s (invoke Native.format i s.toInputs) := by
  cases i with
  | encode =>
    cases hq : s.encValue.toQ with
    | none => rw [exec_encode_of_none s hq, invoke_encode_of_none Native.format s.toInputs hq, answer]
    | some q => rw [exec_encode_of_toQ s q hq, invoke_encode_of_toQ Native.format s.toInputs hq, answer]
  | decode => rfl
  | shr1 => rfl
  | shr => rfl
  | add => rfl

theorem exec_next_invoke {i : Instr} {s t : State} (h : exec i s = .next t) :
    invoke Native.format i s.toInputs = some t.delivered := by
  rw [exec_eq_answer] at h
  cases hr : invoke Native.format i s.toInputs with
  | none => rw [hr] at h; cases h
  | some r => rw [hr] at h; cases h; rfl

/-- `invoke` has no answer only for ENCODE outside its domain. -/
theorem invoke_eq_none_iff {ν : Type} (F : NativeFormat ν) (i : Instr) (p : Inputs ν) :
    invoke F i p = none ↔ i = .encode ∧ F.toQ p.encValue = none := by
  cases i with
  | encode =>
    cases hq : F.toQ p.encValue with
    | none => exact iff_of_true (invoke_encode_of_none F p hq) ⟨rfl, rfl⟩
    | some q =>
      rw [invoke_encode_of_toQ F p hq]
      exact iff_of_false (fun h => nomatch h) (fun ⟨_, h⟩ => nomatch h)
  | decode => exact iff_of_false (fun h => nomatch h) (fun ⟨h, _⟩ => nomatch h)
  | shr1 => exact iff_of_false (fun h => nomatch h) (fun ⟨h, _⟩ => nomatch h)
  | shr => exact iff_of_false (fun h => nomatch h) (fun ⟨h, _⟩ => nomatch h)
  | add => exact iff_of_false (fun h => nomatch h) (fun ⟨h, _⟩ => nomatch h)

theorem invoke_isOf_block {ν : Type} (F : NativeFormat ν) {i : Instr} {p : Inputs ν} {r : Reply ν}
    (h : invoke F i p = some r) : r.isOf i.block := by
  cases i with
  | encode =>
    obtain ⟨e, -, rfl⟩ := Option.map_eq_some_iff.mp h
    rfl
  | decode => cases h; rfl
  | shr1 => cases h; rfl
  | shr => cases h; rfl
  | add => cases h; rfl

/-- Settles O7: every arm of `exec` delivers what `invoke` answers, and refuses where it answers nothing. -/
theorem invocationIsAFunctionOfTheInputs : Obligations.InvocationIsAFunctionOfTheInputs := by
  refine ⟨fun i s => ?_, fun ν F i p => ⟨invoke_eq_none_iff F i p, fun r => invoke_isOf_block F⟩, fun _ _ => rfl⟩
  rw [exec_eq_answer]
  cases invoke Native.format i s.toInputs <;> rfl

theorem invoke_congr {ν : Type} (F : NativeFormat ν) {i : Instr} {p p' : Inputs ν} (h : SameBlockInputs i.block p p') :
    invoke F i p = invoke F i p' := by
  cases i with
  | encode =>
    have hvalue : p'.encValue = p.encValue := h
    rw [invoke, invoke, hvalue]
  | decode =>
    have hrecord : p'.decIn = p.decIn := h
    rw [invoke, invoke, hrecord]
  | shr1 =>
    obtain ⟨hdin, -⟩ : p'.shDin = p.shDin ∧ p'.shPositions = p.shPositions := h
    rw [invoke, invoke, hdin]
  | shr =>
    obtain ⟨hdin, hpos⟩ : p'.shDin = p.shDin ∧ p'.shPositions = p.shPositions := h
    rw [invoke, invoke, hdin, hpos]
  | add =>
    obtain ⟨ha, hb⟩ : p'.addA = p.addA ∧ p'.addB = p.addB := h
    rw [invoke, invoke, ha, hb]

/-- Settles O8: `invoke` reads its block's inputs only, and what is delivered is its answer. -/
theorem outputDependsOnOwnInputsOnly : Obligations.OutputDependsOnOwnInputsOnly := by
  refine ⟨fun ν F i p p' => invoke_congr F, fun i s s' t t' hsame h h' => ?_⟩
  have heq := invoke_congr Native.format hsame
  rw [exec_next_invoke h, exec_next_invoke h'] at heq
  exact Option.some.inj heq

/-- What was delivered before is not read, and is replaced. -/
theorem exec_deliver (j : Instr) (s : State) (r : Reply Native) : exec j (s.deliver r) = exec j s := by
  rw [exec_eq_answer, exec_eq_answer, deliver_toInputs]
  cases invoke Native.format j s.toInputs <;> rfl

/-- Settles O9: all an invocation leaves behind is a delivery. -/
theorem invocationsAreIndependent : Obligations.InvocationsAreIndependent := by
  intro i j s t h
  obtain ⟨r, -, rfl⟩ := exec_next_delivers_own_block h
  exact exec_deliver j s r

end Sys2Proof.Machine

/-! ### The output ports follow the inputs (10_state.md R24, 70_reset_and_hazards.md R116) -/

namespace Sys2Proof.Machine

theorem encOut_of_toQ {s : State} {q : ℚ} (h : s.encValue.toQ = some q) : s.encOut = some (fpEncode q) := by
  rw [encOut_eq, encodeNative_of_toQ Native.format s.encValue q h]

theorem encOut_of_none {s : State} (h : s.encValue.toQ = none) : s.encOut = none := by
  rw [encOut_eq, encodeNative_of_none Native.format s.encValue h]

theorem shDout_of_shr1 {s : State} (h : decodeSelector s.op = .ok .shr1) : s.shDout = shr1 s.shDin := by
  rw [shDout_eq, if_pos h]

theorem shDout_of_not_shr1 {s : State} (h : decodeSelector s.op ≠ .ok .shr1) :
    s.shDout = shr s.shDin s.shPositions := by
  rw [shDout_eq, if_neg h]

/-- Settles O12: each port is its rule's function of the inputs, and a step moves no input. -/
theorem outputsFollowPresentInputs : Obligations.OutputsFollowPresentInputs := by
  refine ⟨fun s q => encOut_of_toQ, fun s => ⟨decValue_eq s, addSum_eq s, shDout_of_shr1, shDout_of_not_shr1⟩,
    fun s q w a b => ⟨encOut_of_toQ (toQ_finite q), decValue_eq _, addSum_eq _⟩, fun s t h => ?_⟩
  obtain ⟨i, -, hexec⟩ := step_next_exec s t h
  obtain ⟨r, -, rfl⟩ := exec_next_delivers_own_block hexec
  exact ⟨rfl, rfl, rfl, rfl, rfl, rfl⟩

/-! #### `range_err` (60_exceptions.md R104) -/

theorem rangeErr_eq_one_iff {α : Type} (r : Except RangeError α) : rangeErr r = 1 ↔ ∃ e, r = .error e := by
  cases r with
  | ok a => exact iff_of_false (show (0 : BitVec 1) ≠ 1 by decide) (fun ⟨e, he⟩ => nomatch he)
  | error e => exact iff_of_true rfl ⟨e, rfl⟩

theorem rangeErr_eq_zero_iff {α : Type} (r : Except RangeError α) : rangeErr r = 0 ↔ ∃ a, r = .ok a := by
  cases r with
  | ok a => exact iff_of_true rfl ⟨a, rfl⟩
  | error e => exact iff_of_false (show (1 : BitVec 1) ≠ 0 by decide) (fun ⟨a, ha⟩ => nomatch ha)

/-- The encoder's `range_err` in terms of its port, and when neither has a level. -/
theorem encRangeErr_spec (s : State) :
    (s.encRangeErr = some 1 ↔ ∃ e, s.encOut = some (.error e)) ∧
    (s.encRangeErr = some 0 ↔ ∃ w, s.encOut = some (.ok w)) ∧ (s.encRangeErr = none ↔ s.encValue.toQ = none) := by
  rw [encRangeErr_eq]
  cases hq : s.encValue.toQ with
  | none =>
    rw [encOut_of_none hq, Option.map_none]
    exact ⟨iff_of_false (fun h => nomatch h) (fun ⟨_, h⟩ => nomatch h),
      iff_of_false (fun h => nomatch h) (fun ⟨_, h⟩ => nomatch h), iff_of_true rfl rfl⟩
  | some q =>
    rw [encOut_of_toQ hq, Option.map_some]
    simp only [Option.some.injEq, rangeErr_eq_one_iff, rangeErr_eq_zero_iff, reduceCtorEq, and_self]

theorem encRangeErr_congr {s s' : State} (h : s.encValue = s'.encValue) : s.encRangeErr = s'.encRangeErr := by
  rw [encRangeErr_eq, encRangeErr_eq, encOut_eq, encOut_eq, h]

theorem addRangeErr_congr {s s' : State} (ha : s.addA = s'.addA) (hb : s.addB = s'.addB) :
    s.addRangeErr = s'.addRangeErr := by
  rw [addRangeErr_eq, addRangeErr_eq, addSum_eq, addSum_eq, ha, hb]

theorem fpEncode_one : ∃ w, fpEncode 1 = .ok w :=
  have hscale : BinaryScale 1 1 := by constructor <;> norm_num
  ⟨_, fpEncode_eq_closedRecord hscale (by norm_num) (by norm_num)⟩

theorem fpEncode_two_pow_127 : fpEncode (2 ^ 127) = .error .encExp := by
  have hscale : BinaryScale (2 ^ 127) 128 := by constructor <;> norm_num
  rw [fpEncode_of_scale hscale, if_pos (by norm_num)]

/-- Two records of exponent byte 255 and mantissa `2^23` sum to `2^24` units, a carry past 255. -/
theorem fpAdd_raises_at_top : fpAdd ⟨0xFF, 0, 0, 0⟩ ⟨0xFF, 0, 0, 0⟩ = .error .addExp := by
  decide +kernel

/-- Settles O13: `range_err` is read off the port, and the port off the operands. -/
theorem rangeErrIsNotLatched : Obligations.RangeErrIsNotLatched := by
  refine ⟨fun s => ?_, fun s s' => ⟨encRangeErr_congr, addRangeErr_congr⟩,
    fun i s t _ => ⟨?_, ?_, fun a b hb => ?_, ?_⟩⟩
  · obtain ⟨hone, hzero, hnone⟩ := encRangeErr_spec s
    rw [addRangeErr_eq]
    exact ⟨hone, hzero, hnone, rangeErr_eq_one_iff s.addSum, rangeErr_eq_zero_iff s.addSum⟩
  · obtain ⟨w, hw⟩ := fpEncode_one
    rw [encRangeErr_of_toQ (toQ_finite 1), hw, rangeErr_ok]
  · rw [encRangeErr_of_toQ (toQ_finite (2 ^ 127)), fpEncode_two_pow_127, rangeErr_error]
  · rw [addRangeErr_eq, addSum_eq, presentOperands_addA, presentOperands_addB, fpAdd_of_right_zero a b hb, rangeErr_ok]
  · rw [addRangeErr_eq, addSum_eq, presentOperands_addA, presentOperands_addB, fpAdd_raises_at_top, rangeErr_error]

/-! #### The ports of the selected block (10_state.md R22, R23; log entry 12) -/

theorem tiedPositions_of_shr1 {ν : Type} {p : Inputs ν} (h : decodeSelector p.op = .ok .shr1) :
    p.tiedPositions = 1 := by
  rw [Inputs.tiedPositions, h]

theorem tiedPositions_of_shr {ν : Type} {p : Inputs ν} (h : decodeSelector p.op = .ok .shr) :
    p.tiedPositions = p.shPositions := by
  rw [Inputs.tiedPositions, h]

theorem portReply_eq_invoke {ν : Type} (F : NativeFormat ν) {i : Instr} {p : Inputs ν}
    (h : decodeSelector p.op = .ok i) : p.portReply F i = invoke F i p := by
  cases i with
  | encode => rfl
  | decode => rfl
  | shr1 => exact congrArg (some <| Reply.dout <| shr p.shDin ·) (tiedPositions_of_shr1 h)
  | shr => exact congrArg (some <| Reply.dout <| shr p.shDin ·) (tiedPositions_of_shr h)
  | add => rfl

/-- Settles O14: the selected block's ports show `invoke`'s answer, which is what is delivered. -/
theorem deliveredIsWhatThePortsShow : Obligations.DeliveredIsWhatThePortsShow := by
  refine ⟨fun ν F i p => portReply_eq_invoke F, fun i s t hi h => ?_⟩
  rw [portReply_eq_invoke Native.format hi, exec_next_invoke h]

/-! #### The views of a record (20_memory.md R28, 10_state.md R23) -/

/-- Settles O17: four bytes by their weights, read from either end. -/
theorem recordViewsAgree : Obligations.RecordViewsAgree := by
  intro w
  have hle : w.le32 = w.exponent.toNat * 2 ^ 24 + w.mantissaHigh.toNat * 2 ^ 16 + w.mantissaMid.toNat * 2 ^ 8 +
      w.mantissaLow.toNat := by
    simp only [Wire.le32, Wire.bytes, List.reverse_cons, List.reverse_nil, List.nil_append, List.cons_append, be,
      List.length_cons, List.length_nil]
    omega
  refine ⟨hle, rfl, ?_⟩
  rw [hle]
  simp only [flatBus, Wire.bytes]
  omega

end Sys2Proof.Machine

/-! ### What is shown and delivered is well formed (30_encoding.md R48, R50, 41_shifter.md R79, 42_adder.md R98) -/

namespace Sys2Proof.Machine

/-! #### One lemma per block -/

theorem encoderResultWf_fpEncode (q : ℚ) : EncoderResultWf (fpEncode q) := by
  cases henc : fpEncode q with
  | error e => exact fpEncode_error_eq_encExp henc
  | ok w =>
    intro hexp
    have hq : q = 0 := by_contra fun hne => fpEncode_ok_exponent_ne_zero hne henc hexp
    rw [hq, fpEncode_zero] at henc
    exact (Except.ok.inj henc).symm

theorem decoderResultWf_fpDecode (w : Wire) : DecoderResultWf (.finite (fpDecode w)) := by
  refine ⟨w.val, by rw [fpDecode_eq_val], ?_⟩
  by_cases h : w.exponent = 0
  · exact .inl (wire_val_of_exponent_zero h)
  · exact .inr (wire_abs_val_range h)

theorem shifterResultWf_shr (s : ByteSeq) (n : Nat) : ShifterResultWf s (shr s n) := by
  refine ⟨shr_length s n, ?_⟩
  rw [be_shr]
  exact Nat.div_le_self _ _

theorem adderResultWf_fpAdd (a b : Work) : AdderResultWf a b (fpAdd a b) := by
  unfold AdderResultWf
  split
  · rename_i hb
    exact fpAdd_of_right_zero a b hb
  · split
    · rename_i hb ha
      exact fpAdd_of_left_zero a b hb ha
    · rename_i hb ha
      obtain herr | ⟨e, t, -, hlo, hhi, -, hok⟩ := fpAdd_nonzero_cases ha hb
      · rw [herr]
      · rw [hok]
        exact ⟨sumRecord_rev_signBit e t, sumRecord_exponent_ne_zero t hlo hhi⟩

/-! #### The ports, and what is delivered -/

theorem outputsWf (s : State) : OutputsWf s := by
  refine ⟨fun r hr => ?_, decoderResultWf_fpDecode s.decIn, ?_, adderResultWf_fpAdd s.addA s.addB⟩
  · cases hq : s.encValue.toQ with
    | none => rw [encOut_of_none hq] at hr; cases hr
    | some q =>
      rw [encOut_of_toQ hq] at hr
      cases hr
      exact encoderResultWf_fpEncode q
  · exact shifterResultWf_shr s.shDin s.toInputs.tiedPositions

/-- Settles O15: the ports are the blocks' functions, whose results are well formed. -/
theorem outputsAreWellFormed : Obligations.OutputsAreWellFormed := outputsWf

/-- Settles O10: nothing has been delivered. -/
theorem resetOutputsWellFormed : Obligations.ResetOutputsWellFormed := ⟨outputsWf State.reset, trivial⟩

theorem exec_next_deliveredFits {i : Instr} {s t : State} (h : exec i s = .next t) : DeliveredFits t := by
  obtain ⟨rfl, q, -, rfl⟩ | ⟨rfl, rfl⟩ | ⟨rfl, rfl⟩ | ⟨rfl, rfl⟩ | ⟨rfl, rfl⟩ := exec_next_cases s i t h
  · exact encoderResultWf_fpEncode q
  · exact decoderResultWf_fpDecode s.decIn
  · exact shifterResultWf_shr s.shDin 1
  · exact shifterResultWf_shr s.shDin s.shPositions
  · exact adderResultWf_fpAdd s.addA s.addB

/-- The adder's well-formedness allows no error but ADD_EXP, whatever the operands. -/
theorem eq_addExp_of_adderResultWf {a b : Work} {e : RangeError} (h : AdderResultWf a b (.error e)) : e = .addExp := by
  rw [AdderResultWf] at h
  split at h
  · cases h
  · split at h
    · cases h
    · exact h

/-- What fits the operands it came from is well formed whatever is presented. -/
theorem deliveredWf_of_fits {s : State} (h : DeliveredFits s) : DeliveredWf s := by
  rw [DeliveredFits] at h
  rw [DeliveredWf]
  cases hdel : s.delivered with
  | nothing => trivial
  | enc r => rw [hdel] at h; exact h
  | value v => rw [hdel] at h; exact h
  | dout d => trivial
  | sum r =>
    rw [hdel] at h
    cases r with
    | ok k => trivial
    | error e => exact eq_addExp_of_adderResultWf h

/-- The invariant of what is held reads nothing else of the state. -/
theorem deliveredWf_congr {s t : State} (h : t.delivered = s.delivered) (hs : DeliveredWf s) : DeliveredWf t := by
  rw [DeliveredWf] at hs ⊢
  rwa [h]

/-- Settles O11: a step delivers what fits its operands, which is well formed; the ports are well formed in every state,
and presenting leaves what is held. -/
theorem stepKeepsOutputsWellFormed : Obligations.StepKeepsOutputsWellFormed := by
  have hfits : ∀ s t : State, step s = .next t → DeliveredFits t := fun s t h =>
    have ⟨_, _, hexec⟩ := step_next_exec s t h
    exec_next_deliveredFits hexec
  refine ⟨fun s t _ h => ⟨outputsWf t, deliveredWf_of_fits (hfits s t h)⟩, fun s op v w d n a b hs => ?_, hfits⟩
  exact ⟨deliveredWf_congr (presentOp_delivered s op) hs, deliveredWf_congr (presentValue_delivered s v) hs,
    deliveredWf_congr (presentRecord_delivered s w) hs, deliveredWf_congr (presentSequence_delivered s d n) hs,
    deliveredWf_congr (presentOperands_delivered s a b) hs⟩

end Sys2Proof.Machine

/-! ### The 64-bit IEEE 754 native format (93_implementation_defined.md G2; log entry 18) -/

namespace Sys2Proof.Machine

/-! #### What a pattern stands for, by its exponent field -/

theorem toQ_ofBinary64_of_top {bits : BitVec 64} (h : (bits.extractLsb' 52 11).toNat = 2047) :
    (Native.ofBinary64 bits).toQ = none := by
  simp only [Native.ofBinary64, if_pos h]
  split <;> rfl

theorem toQ_ofBinary64_of_zero {bits : BitVec 64} (he : (bits.extractLsb' 52 11).toNat = 0)
    (hf : (bits.extractLsb' 0 52).toNat = 0) : (Native.ofBinary64 bits).toQ = some 0 := by
  have htop : (bits.extractLsb' 52 11).toNat ≠ 2047 := by omega
  simp only [Native.ofBinary64, if_neg htop, if_pos (And.intro he hf)]
  split <;> rfl

/-- A sign bit puts a sign before a magnitude. -/
theorem sign_mul_eq_ite (negative : Bool) (m : ℚ) :
    (if negative then -m else m) = (if negative then -1 else 1) * m := by
  cases negative
  · simp only [Bool.false_eq_true, if_false, one_mul]
  · simp only [if_true, neg_one_mul]

theorem toQ_ofBinary64_of_subnormal {bits : BitVec 64} (he : (bits.extractLsb' 52 11).toNat = 0)
    (hf : (bits.extractLsb' 0 52).toNat ≠ 0) : (Native.ofBinary64 bits).toQ =
      some ((if bits.getLsbD 63 then -1 else 1) * (((bits.extractLsb' 0 52).toNat : ℚ) * 2 ^ (-1074 : ℤ))) := by
  have htop : (bits.extractLsb' 52 11).toNat ≠ 2047 := by omega
  simp only [Native.ofBinary64, if_neg htop, if_neg (fun h : _ ∧ _ => hf h.2), if_pos he, toQ_finite]
  exact congrArg some (sign_mul_eq_ite _ _)

theorem toQ_ofBinary64_of_normal {bits : BitVec 64} (he : (bits.extractLsb' 52 11).toNat ≠ 0)
    (htop : (bits.extractLsb' 52 11).toNat ≠ 2047) : (Native.ofBinary64 bits).toQ =
      some ((if bits.getLsbD 63 then -1 else 1) *
        (((2 ^ 52 + (bits.extractLsb' 0 52).toNat : ℕ) : ℚ) * 2 ^ (((bits.extractLsb' 52 11).toNat : ℤ) - 1075))) := by
  simp only [Native.ofBinary64, if_neg htop, if_neg (fun h : _ ∧ _ => he h.1), if_neg he, toQ_finite]
  exact congrArg some (sign_mul_eq_ite _ _)

/-! #### The pattern of a rational -/

section
variable (sign : BitVec 1) (e : BitVec 11) (f : BitVec 52)

theorem fraction_of_pattern : ((sign ++ e) ++ f : BitVec 64).extractLsb' 0 52 = f :=
  (BitVec.extractLsb'_append_eq_of_add_le le_rfl).trans BitVec.extractLsb'_eq_self

theorem expField_of_pattern : ((sign ++ e) ++ f : BitVec 64).extractLsb' 52 11 = e :=
  calc ((sign ++ e) ++ f : BitVec 64).extractLsb' 52 11
    _ = (sign ++ e).extractLsb' 0 11 := BitVec.extractLsb'_append_eq_of_le le_rfl
    _ = e := (BitVec.extractLsb'_append_eq_of_add_le le_rfl).trans BitVec.extractLsb'_eq_self

theorem signBit_of_pattern : ((sign ++ e) ++ f : BitVec 64).getLsbD 63 = sign.getLsbD 0 := by
  have houter : ((sign ++ e) ++ f : BitVec 64).getLsbD 63 = (sign ++ e).getLsbD 11 := BitVec.getLsbD_append
  have hinner : (sign ++ e).getLsbD 11 = sign.getLsbD 0 := BitVec.getLsbD_append
  rw [houter, hinner]

end

theorem toQ_of_pattern {sign : BitVec 1} {e : BitVec 11} {f : BitVec 52} (he : e.toNat ≠ 0) (htop : e.toNat ≠ 2047) :
    (Native.ofBinary64 ((sign ++ e) ++ f)).toQ =
      some ((if sign.getLsbD 0 then -1 else 1) * (((2 ^ 52 + f.toNat : ℕ) : ℚ) * 2 ^ ((e.toNat : ℤ) - 1075))) := by
  have hnormal := toQ_ofBinary64_of_normal (bits := (sign ++ e) ++ f) (by rwa [expField_of_pattern])
    (by rwa [expField_of_pattern])
  rwa [expField_of_pattern, fraction_of_pattern, signBit_of_pattern] at hnormal

theorem scaled_range {q : ℚ} {k : ℤ} {n : Nat} (h : BinaryScale q k) (hn : |q| * 2 ^ (53 - k) = n) :
    2 ^ 52 ≤ n ∧ n < 2 ^ 53 := by
  obtain ⟨hlo, hhi⟩ := (binaryScale_iff_scaled q k 53).mp h
  rw [hn] at hlo hhi
  exact ⟨by norm_num at hlo ⊢; exact_mod_cast hlo, by exact_mod_cast hhi⟩

/-- The significand the pattern stores, without its implied bit. -/
theorem binary64OfRat_significand {q : ℚ} {k : ℤ} {n : Nat} (h : BinaryScale q k) (hn : |q| * 2 ^ (53 - k) = n) :
    ((2 * (normalise q).1 - 1) * 2 ^ 52).floor = (n : ℤ) - 2 ^ 52 := by
  obtain ⟨-, -, hmag⟩ := normalise_spec q (binaryScale_ne_zero h)
  have hscaled : (normalise q).1 * 2 ^ 53 = n := by
    rw [← hn, hmag, ← binaryScale_eq_counter h, mul_assoc, ← zpow_add₀ two_ne_zero, add_sub_cancel]
    rfl
  have hint : (2 * (normalise q).1 - 1) * 2 ^ 52 = (((n : ℤ) - 2 ^ 52 : ℤ) : ℚ) := by
    push_cast
    linarith
  rw [hint]
  exact Int.floor_intCast (R := ℚ) _

theorem binary64OfRat_eq_pattern {q : ℚ} {k : ℤ} {n : Nat} (h : BinaryScale q k) (hn : |q| * 2 ^ (53 - k) = n) :
    binary64OfRat q =
      ((if q < 0 then 1 else 0 : BitVec 1) ++ BitVec.ofInt 11 (k + 1022)) ++ BitVec.ofInt 52 ((n : ℤ) - 2 ^ 52) := by
  simp only [binary64OfRat, if_neg (binaryScale_ne_zero h), binary64OfRat_significand h hn, ← binaryScale_eq_counter h]

/-- A number of at most 53 significant bits and normal exponent is the value of its pattern. -/
theorem toQ_binary64OfRat {q : ℚ} {k : ℤ} {n : Nat} (h : BinaryScale q k) (hlo : -1021 ≤ k) (hhi : k ≤ 1024)
    (hn : |q| * 2 ^ (53 - k) = n) : (Native.ofBinary64 (binary64OfRat q)).toQ = some q := by
  obtain ⟨hnlo, hnhi⟩ := scaled_range h hn
  have he : ((BitVec.ofInt 11 (k + 1022)).toNat : ℤ) = k + 1022 := by
    rw [BitVec.toNat_ofInt]
    omega
  have hf : 2 ^ 52 + (BitVec.ofInt 52 ((n : ℤ) - 2 ^ 52)).toNat = n := by
    rw [BitVec.toNat_ofInt]
    omega
  have habs : (n : ℚ) * 2 ^ (k + 1022 - 1075) = |q| := by
    rw [← hn, mul_assoc, ← zpow_add₀ two_ne_zero, show 53 - k + (k + 1022 - 1075) = 0 by ring, zpow_zero, mul_one]
  rw [binary64OfRat_eq_pattern h hn, toQ_of_pattern (by omega) (by omega), hf, he, habs]
  obtain hneg | hpos := (binaryScale_ne_zero h).lt_or_gt
  · simp [hneg, abs_of_neg hneg]
  · simp [hpos.not_gt, abs_of_pos hpos]

theorem toQ_binary64OfRat_zero : (Native.ofBinary64 (binary64OfRat 0)).toQ = some 0 := by
  rw [binary64OfRat, if_pos rfl]
  exact toQ_ofBinary64_of_zero rfl rfl

/-- A record's 24 bits fit in the pattern's 53, and its exponents in the pattern's normal ones. -/
theorem binary64_holdsRecordValues : NativeFormat.binary64.HoldsRecordValues := by
  intro w
  by_cases h : w.exponent = 0
  · rw [wire_val_of_exponent_zero h]
    exact toQ_binary64OfRat_zero
  · obtain ⟨helo, hehi⟩ := exponent_byte_range h
    have hscaled : |w.val| * 2 ^ (53 - ((w.exponent.toNat : ℤ) - 128)) = (w.mantissa * 2 ^ 29 : ℕ) := by
      have hexp : 53 - ((w.exponent.toNat : ℤ) - 128) = 24 - (w.exponent.toNat - 128) + 29 := by ring
      rw [hexp, zpow_add₀ two_ne_zero, ← mul_assoc, wire_abs_val_scaled h]
      push_cast
      rfl
    exact toQ_binary64OfRat (binaryScale_wire_val h) (by omega) (by omega) hscaled

/-- Settles O51: the two formats on rationals hold everything; 64-bit patterns hold 53 significant bits. -/
theorem nativeFormatsHoldRecordValues : Obligations.NativeFormatsHoldRecordValues :=
  ⟨fun _ => rfl, fun _ => rfl, binary64_holdsRecordValues⟩

/-! #### Patterns on the encoder -/

/-- ENCODE's underflow: a non-zero magnitude below `2^-128`. -/
theorem fpEncode_of_underflow {q : ℚ} (hq : q ≠ 0) (h : |q| < 2 ^ (-128 : ℤ)) : fpEncode q = .error .encExp := by
  obtain ⟨-, hout⟩ := (counter_out_of_range_iff q).mpr (.inl ⟨abs_pos.mpr hq, h⟩)
  exact fpEncode_of_counter_out_of_range q hq hout

/-- A subnormal is far below the encoder's range. -/
theorem fpEncode_of_subnormal (negative : Bool) {f : Nat} (hf : f ≠ 0) (hlt : f < 2 ^ 52) :
    fpEncode ((if negative then -1 else 1) * ((f : ℚ) * 2 ^ (-1074 : ℤ))) = .error .encExp := by
  have hunit : (0 : ℚ) < 2 ^ (-1074 : ℤ) := by positivity
  have hf' : (f : ℚ) ≠ 0 := by exact_mod_cast hf
  have hsign : |(if negative then -1 else 1 : ℚ)| = 1 := by split <;> simp
  have habs : |(if negative then -1 else 1) * ((f : ℚ) * 2 ^ (-1074 : ℤ))| = (f : ℚ) * 2 ^ (-1074 : ℤ) := by
    rw [abs_mul, hsign, one_mul, abs_of_nonneg (by positivity)]
  have hsmall : (f : ℚ) * 2 ^ (-1074 : ℤ) < 2 ^ (-128 : ℤ) :=
    calc (f : ℚ) * 2 ^ (-1074 : ℤ) < 2 ^ (52 : ℤ) * 2 ^ (-1074 : ℤ) := by
          have hlt' : (f : ℚ) < 2 ^ (52 : ℤ) := by exact_mod_cast hlt
          gcongr
      _ = 2 ^ (-1022 : ℤ) := by rw [← zpow_add₀ two_ne_zero]; rfl
      _ ≤ 2 ^ (-128 : ℤ) := zpow_le_zpow_right₀ one_le_two (by norm_num)
  apply fpEncode_of_underflow
  · rw [← abs_pos, habs]
    positivity
  · rwa [habs]

/-- The lower 63 bits are the exponent field and the fraction. -/
theorem fields_of_magnitude_zero {bits : BitVec 64} (h : bits.extractLsb' 0 63 = 0) :
    (bits.extractLsb' 52 11).toNat = 0 ∧ (bits.extractLsb' 0 52).toNat = 0 := by
  have hzero : (bits.extractLsb' 0 63).toNat = 0 := congrArg BitVec.toNat h
  simp only [BitVec.extractLsb'_toNat, Nat.shiftRight_eq_div_pow] at hzero ⊢
  omega

/-- Settles O52: the exponent field of a pattern decides its `toQ`; DECODE's results are `val`s, which patterns hold. -/
theorem binary64ValuesOnTheCodec : Obligations.Binary64ValuesOnTheCodec := by
  refine ⟨?_, fun s => ⟨binary64OfRat s.decIn.val, _, exec_decode_val s, binary64_holdsRecordValues s.decIn⟩⟩
  rintro s t bits rfl
  refine ⟨fun htop => ?_, fun hzero => ?_, fun he hf => ?_⟩
  · have hfield : (bits.extractLsb' 52 11).toNat = 2047 := congrArg BitVec.toNat htop
    exact exec_encode_of_none (s.presentValue (Native.ofBinary64 bits)) (toQ_ofBinary64_of_top hfield)
  · obtain ⟨he, hf⟩ := fields_of_magnitude_zero hzero
    exact exec_encode_zero (s := s.presentValue (Native.ofBinary64 bits)) (toQ_ofBinary64_of_zero he hf)
  · have hfield : (bits.extractLsb' 52 11).toNat = 0 := congrArg BitVec.toNat he
    have hfraction : (bits.extractLsb' 0 52).toNat ≠ 0 := fun h => hf (BitVec.eq_of_toNat_eq h)
    have htoQ := toQ_ofBinary64_of_subnormal hfield hfraction
    rw [exec_encode_of_toQ (s.presentValue (Native.ofBinary64 bits)) _ htoQ,
      fpEncode_of_subnormal _ hfraction (bits.extractLsb' 0 52).isLt]

end Sys2Proof.Machine
